-- ==== Sys2Proof/Word.lean ====
section
/-! DEFINITION. The machine's number types (00_scope R7: XLEN 32, byte-addressed). Plain widths only. -/

namespace Sys2Proof

/-- A register, an address or a memory word: an unsigned 32-bit number (00_scope R10). -/
abbrev Word := BitVec 32

/-- One byte of memory (20_memory R50). -/
abbrev Byte := BitVec 8

/-- The name of a general register: each 5-bit value names the register of that index (30_encoding R104). -/
abbrev Reg := BitVec 5

end Sys2Proof
end

