-- ==== Sys2Proof/Machine/Flags.lean ====
section
/-! DEFINITION. The conditions instructions compute. The machine has no flags (10_state R24): a comparison is written into a register
or decides a branch, and an overflow is tested on exact integers (40_alu_immediate R130). -/

namespace Sys2Proof.Machine

/-- An exact result outside [-2^31, 2^31-1] (40_alu_immediate R130). -/
def outsideSigned (r : Int) : Bool := decide (r < -2147483648) || decide (2147483647 < r)

/-- `add_ovf(a, b)` (40_alu_immediate R130). -/
def addOverflows (a b : Word) : Bool := outsideSigned (a.toInt + b.toInt)

/-- `sub_ovf(a, b)` (40_alu_immediate R130). -/
def subOverflows (a b : Word) : Bool := outsideSigned (a.toInt - b.toInt)

/-- A comparison written into a register yields 1 or 0 (00_scope R10). -/
def boolWord (c : Bool) : Word := if c then 1#32 else 0#32

/-- `signed(a) < signed(b)` (41_alu_register R160). -/
def signedLess (a b : Word) : Bool := decide (a.toInt < b.toInt)

/-- `unsigned(a) < unsigned(b)` (41_alu_register R161). -/
def unsignedLess (a b : Word) : Bool := decide (a.toNat < b.toNat)

/-- `signed(a) < 0` (44_control R244). -/
def isNegative (a : Word) : Bool := decide (a.toInt < 0)

/-- `signed(a) <= 0` (44_control R242). -/
def isNonPositive (a : Word) : Bool := decide (a.toInt ≤ 0)

end Sys2Proof.Machine
end

