-- ==== Sys2Proof/Syntax.lean ====
section
/-! DEFINITION. The instructions: one constructor per row of spec/opcode_table.json.

A constructor holds every bit of the word that does not select the row, in the order of the record
formats (30_encoding R100 R-type: rs rt rd shamt; R101 I-type: rs rt imm; R102 J-type: target). Fields an
instruction ignores (R109) stay, because a fault records the raw word (60_exceptions R271): log 10. -/

namespace Sys2Proof

inductive Instr where
  -- 40_alu_immediate.md
  | addi (rs rt : Reg) (imm : BitVec 16)
  | addiu (rs rt : Reg) (imm : BitVec 16)
  | slti (rs rt : Reg) (imm : BitVec 16)
  | sltiu (rs rt : Reg) (imm : BitVec 16)
  | andi (rs rt : Reg) (imm : BitVec 16)
  | ori (rs rt : Reg) (imm : BitVec 16)
  | xori (rs rt : Reg) (imm : BitVec 16)
  | lui (rs rt : Reg) (imm : BitVec 16)
  -- 41_alu_register.md
  | add (rs rt rd : Reg) (shamt : BitVec 5)
  | addu (rs rt rd : Reg) (shamt : BitVec 5)
  | sub (rs rt rd : Reg) (shamt : BitVec 5)
  | subu (rs rt rd : Reg) (shamt : BitVec 5)
  | and (rs rt rd : Reg) (shamt : BitVec 5)
  | or (rs rt rd : Reg) (shamt : BitVec 5)
  | xor (rs rt rd : Reg) (shamt : BitVec 5)
  | nor (rs rt rd : Reg) (shamt : BitVec 5)
  | slt (rs rt rd : Reg) (shamt : BitVec 5)
  | sltu (rs rt rd : Reg) (shamt : BitVec 5)
  | sll (rs rt rd : Reg) (shamt : BitVec 5)
  | srl (rs rt rd : Reg) (shamt : BitVec 5)
  | sra (rs rt rd : Reg) (shamt : BitVec 5)
  | sllv (rs rt rd : Reg) (shamt : BitVec 5)
  | srlv (rs rt rd : Reg) (shamt : BitVec 5)
  | srav (rs rt rd : Reg) (shamt : BitVec 5)
  -- 42_muldiv.md
  | mult (rs rt rd : Reg) (shamt : BitVec 5)
  | multu (rs rt rd : Reg) (shamt : BitVec 5)
  | div (rs rt rd : Reg) (shamt : BitVec 5)
  | divu (rs rt rd : Reg) (shamt : BitVec 5)
  | mfhi (rs rt rd : Reg) (shamt : BitVec 5)
  | mthi (rs rt rd : Reg) (shamt : BitVec 5)
  | mflo (rs rt rd : Reg) (shamt : BitVec 5)
  | mtlo (rs rt rd : Reg) (shamt : BitVec 5)
  -- 43_loadstore.md
  | lb (rs rt : Reg) (imm : BitVec 16)
  | lbu (rs rt : Reg) (imm : BitVec 16)
  | lh (rs rt : Reg) (imm : BitVec 16)
  | lhu (rs rt : Reg) (imm : BitVec 16)
  | lw (rs rt : Reg) (imm : BitVec 16)
  | sb (rs rt : Reg) (imm : BitVec 16)
  | sh (rs rt : Reg) (imm : BitVec 16)
  | sw (rs rt : Reg) (imm : BitVec 16)
  | lwl (rs rt : Reg) (imm : BitVec 16)
  | lwr (rs rt : Reg) (imm : BitVec 16)
  | swl (rs rt : Reg) (imm : BitVec 16)
  | swr (rs rt : Reg) (imm : BitVec 16)
  -- 44_control.md (bits 20:16 of the REGIMM rows select the row)
  | beq (rs rt : Reg) (imm : BitVec 16)
  | bne (rs rt : Reg) (imm : BitVec 16)
  | blez (rs rt : Reg) (imm : BitVec 16)
  | bgtz (rs rt : Reg) (imm : BitVec 16)
  | bltz (rs : Reg) (imm : BitVec 16)
  | bgez (rs : Reg) (imm : BitVec 16)
  | bltzal (rs : Reg) (imm : BitVec 16)
  | bgezal (rs : Reg) (imm : BitVec 16)
  | j (target : BitVec 26)
  | jal (target : BitVec 26)
  | jr (rs rt rd : Reg) (shamt : BitVec 5)
  | jalr (rs rt rd : Reg) (shamt : BitVec 5)
  -- 45_system.md (the illegal rows; SYSCALL and BREAK with the code field w[25:6], the others with w[25:0])
  | syscall (code : BitVec 20)
  | brk (code : BitVec 20)
  | cop0 (rest : BitVec 26)
  | cop1 (rest : BitVec 26)
  | cop2 (rest : BitVec 26)
  | cop3 (rest : BitVec 26)
  | lwc0 (rest : BitVec 26)
  | lwc1 (rest : BitVec 26)
  | lwc2 (rest : BitVec 26)
  | lwc3 (rest : BitVec 26)
  | swc0 (rest : BitVec 26)
  | swc1 (rest : BitVec 26)
  | swc2 (rest : BitVec 26)
  | swc3 (rest : BitVec 26)
  deriving DecidableEq, Repr

end Sys2Proof
end

