-- ==== Sys2Proof/Decode.lean ====
section
/-! DEFINITION. The decoder (30_encoding R100 to R112), total on any bytes and rejecting by name, and after it the encoder
written from the same tables. -/

namespace Sys2Proof

/-- Why a word selects no row of the opcode table (30_encoding R108). The step turns every rejection of a word into
`IllegalInstruction`. -/
inductive Reject where
  /-- A `*` cell of the primary map (R111). -/
  | reservedOpcode (op : BitVec 6)
  /-- A `*` cell of the SPECIAL map (R112). -/
  | reservedFunct (funct : BitVec 6)
  /-- A REGIMM sub-opcode other than the four of R107. -/
  | reservedRegimm (rt : BitVec 5)
  /-- Fewer than the four bytes of an instruction (R110). -/
  | truncated
  deriving DecidableEq, Repr

/-- R100, R101, R102: `w[31:26]`. -/
def fieldOp (w : Word) : BitVec 6 := w.extractLsb' 26 6
/-- R100, R101: `w[25:21]`. -/
def fieldRs (w : Word) : Reg := w.extractLsb' 21 5
/-- R100, R101: `w[20:16]`. -/
def fieldRt (w : Word) : Reg := w.extractLsb' 16 5
/-- R100: `w[15:11]`. -/
def fieldRd (w : Word) : Reg := w.extractLsb' 11 5
/-- R100: `w[10:6]`. -/
def fieldShamt (w : Word) : BitVec 5 := w.extractLsb' 6 5
/-- R100: `w[5:0]`. -/
def fieldFunct (w : Word) : BitVec 6 := w.extractLsb' 0 6
/-- R101: `w[15:0]`. -/
def fieldImm (w : Word) : BitVec 16 := w.extractLsb' 0 16
/-- R102: `w[25:0]`. -/
def fieldTarget (w : Word) : BitVec 26 := w.extractLsb' 0 26
/-- R260, R261: the code field `w[25:6]`. -/
def fieldCode (w : Word) : BitVec 20 := w.extractLsb' 6 20

/-- R106, R112: the SPECIAL map, by `funct`. -/
def decodeSpecial (w : Word) : Except Reject Instr :=
  let rs := fieldRs w
  let rt := fieldRt w
  let rd := fieldRd w
  let sh := fieldShamt w
  match fieldFunct w with
  | 0x00#6 => .ok (.sll rs rt rd sh)
  | 0x02#6 => .ok (.srl rs rt rd sh)
  | 0x03#6 => .ok (.sra rs rt rd sh)
  | 0x04#6 => .ok (.sllv rs rt rd sh)
  | 0x06#6 => .ok (.srlv rs rt rd sh)
  | 0x07#6 => .ok (.srav rs rt rd sh)
  | 0x08#6 => .ok (.jr rs rt rd sh)
  | 0x09#6 => .ok (.jalr rs rt rd sh)
  | 0x0C#6 => .ok (.syscall (fieldCode w))
  | 0x0D#6 => .ok (.brk (fieldCode w))
  | 0x10#6 => .ok (.mfhi rs rt rd sh)
  | 0x11#6 => .ok (.mthi rs rt rd sh)
  | 0x12#6 => .ok (.mflo rs rt rd sh)
  | 0x13#6 => .ok (.mtlo rs rt rd sh)
  | 0x18#6 => .ok (.mult rs rt rd sh)
  | 0x19#6 => .ok (.multu rs rt rd sh)
  | 0x1A#6 => .ok (.div rs rt rd sh)
  | 0x1B#6 => .ok (.divu rs rt rd sh)
  | 0x20#6 => .ok (.add rs rt rd sh)
  | 0x21#6 => .ok (.addu rs rt rd sh)
  | 0x22#6 => .ok (.sub rs rt rd sh)
  | 0x23#6 => .ok (.subu rs rt rd sh)
  | 0x24#6 => .ok (.and rs rt rd sh)
  | 0x25#6 => .ok (.or rs rt rd sh)
  | 0x26#6 => .ok (.xor rs rt rd sh)
  | 0x27#6 => .ok (.nor rs rt rd sh)
  | 0x2A#6 => .ok (.slt rs rt rd sh)
  | 0x2B#6 => .ok (.sltu rs rt rd sh)
  | f => .error (.reservedFunct f)

/-- R107: the REGIMM map, by bits 20:16. -/
def decodeRegimm (w : Word) : Except Reject Instr :=
  match fieldRt w with
  | 0x00#5 => .ok (.bltz (fieldRs w) (fieldImm w))
  | 0x01#5 => .ok (.bgez (fieldRs w) (fieldImm w))
  | 0x10#5 => .ok (.bltzal (fieldRs w) (fieldImm w))
  | 0x11#5 => .ok (.bgezal (fieldRs w) (fieldImm w))
  | r => .error (.reservedRegimm r)

/-- R105, R111: the primary map, by `opcode`. -/
def decodeWord (w : Word) : Except Reject Instr :=
  let rs := fieldRs w
  let rt := fieldRt w
  let imm := fieldImm w
  match fieldOp w with
  | 0x00#6 => decodeSpecial w
  | 0x01#6 => decodeRegimm w
  | 0x02#6 => .ok (.j (fieldTarget w))
  | 0x03#6 => .ok (.jal (fieldTarget w))
  | 0x04#6 => .ok (.beq rs rt imm)
  | 0x05#6 => .ok (.bne rs rt imm)
  | 0x06#6 => .ok (.blez rs rt imm)
  | 0x07#6 => .ok (.bgtz rs rt imm)
  | 0x08#6 => .ok (.addi rs rt imm)
  | 0x09#6 => .ok (.addiu rs rt imm)
  | 0x0A#6 => .ok (.slti rs rt imm)
  | 0x0B#6 => .ok (.sltiu rs rt imm)
  | 0x0C#6 => .ok (.andi rs rt imm)
  | 0x0D#6 => .ok (.ori rs rt imm)
  | 0x0E#6 => .ok (.xori rs rt imm)
  | 0x0F#6 => .ok (.lui rs rt imm)
  | 0x10#6 => .ok (.cop0 (fieldTarget w))
  | 0x11#6 => .ok (.cop1 (fieldTarget w))
  | 0x12#6 => .ok (.cop2 (fieldTarget w))
  | 0x13#6 => .ok (.cop3 (fieldTarget w))
  | 0x20#6 => .ok (.lb rs rt imm)
  | 0x21#6 => .ok (.lh rs rt imm)
  | 0x22#6 => .ok (.lwl rs rt imm)
  | 0x23#6 => .ok (.lw rs rt imm)
  | 0x24#6 => .ok (.lbu rs rt imm)
  | 0x25#6 => .ok (.lhu rs rt imm)
  | 0x26#6 => .ok (.lwr rs rt imm)
  | 0x28#6 => .ok (.sb rs rt imm)
  | 0x29#6 => .ok (.sh rs rt imm)
  | 0x2A#6 => .ok (.swl rs rt imm)
  | 0x2B#6 => .ok (.sw rs rt imm)
  | 0x2E#6 => .ok (.swr rs rt imm)
  | 0x30#6 => .ok (.lwc0 (fieldTarget w))
  | 0x31#6 => .ok (.lwc1 (fieldTarget w))
  | 0x32#6 => .ok (.lwc2 (fieldTarget w))
  | 0x33#6 => .ok (.lwc3 (fieldTarget w))
  | 0x38#6 => .ok (.swc0 (fieldTarget w))
  | 0x39#6 => .ok (.swc1 (fieldTarget w))
  | 0x3A#6 => .ok (.swc2 (fieldTarget w))
  | 0x3B#6 => .ok (.swc3 (fieldTarget w))
  | op => .error (.reservedOpcode op)

/-- The four bytes of a word, the least significant first (20_memory R51). -/
def wordBytes (w : Word) : List Byte :=
  [w.extractLsb' 0 8, w.extractLsb' 8 8, w.extractLsb' 16 8, w.extractLsb' 24 8]

/-- The word of four bytes, the first one least significant (20_memory R51). -/
def wordOfBytes (b0 b1 b2 b3 : Byte) : Word := b3 ++ b2 ++ b1 ++ b0

/-- R110: one instruction from a byte stream, with the rest of the stream. -/
def decodeBytes : List Byte → Except Reject (Instr × List Byte)
  | b0 :: b1 :: b2 :: b3 :: rest =>
    match decodeWord (wordOfBytes b0 b1 b2 b3) with
    | .ok i => .ok (i, rest)
    | .error e => .error e
  | _ => .error .truncated

/-- The instruction the decoder reads from the word whose low `nbits` bits are those of `w` and whose other bits are 0. -/
def tableWord (nbits w : Nat) : Word := BitVec.ofNat 32 (w % 2 ^ nbits)

/-- The host's question about one row of the opcode table: the word laid out as the hardware stores it, decoded. -/
def decodeTableWord (nbits w : Nat) : Option Instr :=
  match decodeBytes (wordBytes (tableWord nbits w)) with
  | .ok (i, _) => some i
  | .error _ => none

/-- R100: the R-type record under opcode 0 (SPECIAL). -/
def packR (rs rt rd : Reg) (shamt : BitVec 5) (funct : BitVec 6) : Word :=
  0x00#6 ++ rs ++ rt ++ rd ++ shamt ++ funct

/-- R101: the I-type record. -/
def packI (op : BitVec 6) (rs rt : Reg) (imm : BitVec 16) : Word := op ++ rs ++ rt ++ imm

/-- R102: the J-type record; also a row whose 26 low bits are free (R262). -/
def packJ (op : BitVec 6) (target : BitVec 26) : Word := op ++ target

/-- R260, R261: SPECIAL with a 20-bit code field. -/
def packCode (code : BitVec 20) (funct : BitVec 6) : Word := 0x00#6 ++ code ++ funct

/-- The word of an instruction (30_encoding R100 to R112, 45_system R260 to R262). -/
def encode : Instr → Word
  | .addi rs rt imm => packI 0x08#6 rs rt imm
  | .addiu rs rt imm => packI 0x09#6 rs rt imm
  | .slti rs rt imm => packI 0x0A#6 rs rt imm
  | .sltiu rs rt imm => packI 0x0B#6 rs rt imm
  | .andi rs rt imm => packI 0x0C#6 rs rt imm
  | .ori rs rt imm => packI 0x0D#6 rs rt imm
  | .xori rs rt imm => packI 0x0E#6 rs rt imm
  | .lui rs rt imm => packI 0x0F#6 rs rt imm
  | .add rs rt rd sh => packR rs rt rd sh 0x20#6
  | .addu rs rt rd sh => packR rs rt rd sh 0x21#6
  | .sub rs rt rd sh => packR rs rt rd sh 0x22#6
  | .subu rs rt rd sh => packR rs rt rd sh 0x23#6
  | .and rs rt rd sh => packR rs rt rd sh 0x24#6
  | .or rs rt rd sh => packR rs rt rd sh 0x25#6
  | .xor rs rt rd sh => packR rs rt rd sh 0x26#6
  | .nor rs rt rd sh => packR rs rt rd sh 0x27#6
  | .slt rs rt rd sh => packR rs rt rd sh 0x2A#6
  | .sltu rs rt rd sh => packR rs rt rd sh 0x2B#6
  | .sll rs rt rd sh => packR rs rt rd sh 0x00#6
  | .srl rs rt rd sh => packR rs rt rd sh 0x02#6
  | .sra rs rt rd sh => packR rs rt rd sh 0x03#6
  | .sllv rs rt rd sh => packR rs rt rd sh 0x04#6
  | .srlv rs rt rd sh => packR rs rt rd sh 0x06#6
  | .srav rs rt rd sh => packR rs rt rd sh 0x07#6
  | .mult rs rt rd sh => packR rs rt rd sh 0x18#6
  | .multu rs rt rd sh => packR rs rt rd sh 0x19#6
  | .div rs rt rd sh => packR rs rt rd sh 0x1A#6
  | .divu rs rt rd sh => packR rs rt rd sh 0x1B#6
  | .mfhi rs rt rd sh => packR rs rt rd sh 0x10#6
  | .mthi rs rt rd sh => packR rs rt rd sh 0x11#6
  | .mflo rs rt rd sh => packR rs rt rd sh 0x12#6
  | .mtlo rs rt rd sh => packR rs rt rd sh 0x13#6
  | .lb rs rt imm => packI 0x20#6 rs rt imm
  | .lbu rs rt imm => packI 0x24#6 rs rt imm
  | .lh rs rt imm => packI 0x21#6 rs rt imm
  | .lhu rs rt imm => packI 0x25#6 rs rt imm
  | .lw rs rt imm => packI 0x23#6 rs rt imm
  | .sb rs rt imm => packI 0x28#6 rs rt imm
  | .sh rs rt imm => packI 0x29#6 rs rt imm
  | .sw rs rt imm => packI 0x2B#6 rs rt imm
  | .lwl rs rt imm => packI 0x22#6 rs rt imm
  | .lwr rs rt imm => packI 0x26#6 rs rt imm
  | .swl rs rt imm => packI 0x2A#6 rs rt imm
  | .swr rs rt imm => packI 0x2E#6 rs rt imm
  | .beq rs rt imm => packI 0x04#6 rs rt imm
  | .bne rs rt imm => packI 0x05#6 rs rt imm
  | .blez rs rt imm => packI 0x06#6 rs rt imm
  | .bgtz rs rt imm => packI 0x07#6 rs rt imm
  | .bltz rs imm => packI 0x01#6 rs 0x00#5 imm
  | .bgez rs imm => packI 0x01#6 rs 0x01#5 imm
  | .bltzal rs imm => packI 0x01#6 rs 0x10#5 imm
  | .bgezal rs imm => packI 0x01#6 rs 0x11#5 imm
  | .j target => packJ 0x02#6 target
  | .jal target => packJ 0x03#6 target
  | .jr rs rt rd sh => packR rs rt rd sh 0x08#6
  | .jalr rs rt rd sh => packR rs rt rd sh 0x09#6
  | .syscall code => packCode code 0x0C#6
  | .brk code => packCode code 0x0D#6
  | .cop0 rest => packJ 0x10#6 rest
  | .cop1 rest => packJ 0x11#6 rest
  | .cop2 rest => packJ 0x12#6 rest
  | .cop3 rest => packJ 0x13#6 rest
  | .lwc0 rest => packJ 0x30#6 rest
  | .lwc1 rest => packJ 0x31#6 rest
  | .lwc2 rest => packJ 0x32#6 rest
  | .lwc3 rest => packJ 0x33#6 rest
  | .swc0 rest => packJ 0x38#6 rest
  | .swc1 rest => packJ 0x39#6 rest
  | .swc2 rest => packJ 0x3A#6 rest
  | .swc3 rest => packJ 0x3B#6 rest

end Sys2Proof
end

