-- ==== Sys2Proof/Config.lean ====
section
/-! DEFINITION. The launch parameters (00_scope R7) as plain data. The machine takes them as arguments: the part that is read while
it runs stands in State (log 6), and `Machine.construct` builds a state from a whole launch (70_reset R302). -/

namespace Sys2Proof

/-- The two Boolean parameters of 00_scope R7. -/
structure Params where
  /-- `TRAP_ON_OVERFLOW` (40_alu_immediate R130). -/
  trapOnOverflow : Bool
  /-- `FINAL_FLUSH` (70_reset R311). -/
  finalFlush : Bool
  deriving DecidableEq, Repr

/-- A device as a binding names it. The footprint is fixed by the device (20_memory R53): a memory device's is its
length, the console's is 2 bytes (R71), the halt device's is 1 byte (R70): log 8. -/
inductive DeviceKind where
  | memory (length : Word)
  | console
  | halt
  deriving DecidableEq, Repr

/-- One entry of `BINDINGS` (20_memory R55). -/
structure Binding where
  base : Word
  kind : DeviceKind
  deriving DecidableEq, Repr

/-- Why bus construction fails (20_memory R56, R57). No machine state exists then (60_exceptions R274). -/
inductive ConfigError where
  | configOverlap
  | configInvalid
  deriving DecidableEq, Repr

/-- Everything the loader and the host hand to construction (00_scope R7, 70_reset R301). -/
structure Launch where
  bindings : List Binding
  /-- `MEM_INIT`: bytes by absolute address; a later entry for the same address wins (log 15). -/
  memInit : List Host.Cell
  entry : Word
  /-- `LOADER_REGS`; an entry for register 0 has no effect, and a later entry for the same register wins (log 15). -/
  loaderRegs : List (Reg × Word)
  /-- `REG_INIT`; slot 0 is not used. -/
  regInit : Vector Word 32
  hiInit : Word
  loInit : Word
  params : Params
  deriving DecidableEq, Repr

/-- The standard configuration CFG of 95_test_vectors (DESIGN CHOICE as the launch of State.reset, log 3), with every
register and `hi`, `lo` at 0 (DESIGN CHOICE, log 4) and no memory byte listed (DESIGN CHOICE, log 5). -/
def Launch.standard : Launch where
  bindings := [⟨0x00000000#32, .memory 0x1000#32⟩, ⟨0x00002000#32, .console⟩, ⟨0x00003000#32, .halt⟩]
  memInit := []
  entry := 0x00000000#32
  loaderRegs := []
  regInit := Vector.replicate 32 0#32
  hiInit := 0#32
  loInit := 0#32
  params := { trapOnOverflow := false, finalFlush := false }

end Sys2Proof
end

