-- ==== Sys2Proof/Machine/State.lean ====
section
/-! DEFINITION. The state of the machine (10_state R32) as plain data, the faults (60_exceptions R271) and the state after reset
(10_state R34). -/

namespace Sys2Proof.Machine

/-- The kind of a bus access (20_memory R61). -/
inductive Access where
  | fetch
  | read
  | write
  deriving DecidableEq, Repr

/-- The width of a bus access: 1, 2 or 4 bytes (20_memory R62). -/
inductive Width where
  | byte
  | half
  | word
  deriving DecidableEq, Repr

/-- The ten faults, a closed set (60_exceptions R271), each with the info it records. An instruction that raises one takes it
as a next state whose status is `faulted` (R272, log 1); `step` answers `Outcome.fault` only from a state that is
already faulted (10_state R31). -/
inductive Fault where
  /-- Raised by the step on a word that selects no row, and by the meanings of the 14 illegal rows (30_encoding R108,
  45_system R260 to R262). Safe: the spec's own fault. -/
  | illegalInstruction (word pc : Word)
  /-- Raised by every bus access no binding covers (20_memory R61). Safe: the spec's own fault. -/
  | invalidAddress (addr : Word) (kind : Access) (width : Width) (pc : Word)
  /-- Raised by a memory-device access past the device's end (20_memory R69). Safe: the spec's own fault. -/
  | deviceRange (addr : Word) (kind : Access) (width : Width) (pc : Word)
  /-- Raised by DIV and DIVU with divisor 0 (42_muldiv R182, R183). Safe: the spec's own fault. -/
  | divideByZero (pc : Word)
  /-- Raised by DIV of -2^31 by -1 (42_muldiv R182). Safe: the spec's own fault. -/
  | divideOverflow (pc : Word)
  /-- Raised by ADD, ADDI and SUB on signed overflow when `TRAP_ON_OVERFLOW` holds (40_alu_immediate R130). Safe: the
  spec's own fault. -/
  | arithmeticOverflow (pc : Word)
  /-- Raised by the step at a `pc` that is not a multiple of 4 (60_exceptions R276). Safe: the spec's own fault. -/
  | misalignedFetch (pc : Word)
  /-- Raised by a control-transfer instruction in a delay slot (44_control R232). Safe: the spec's own fault. -/
  | branchInDelaySlot (word pc : Word)
  /-- Raised by JALR, BLTZAL and BGEZAL on a link-register conflict (44_control R234). Safe: the spec's own fault. -/
  | unpredictableOperands (word pc : Word)
  /-- Raised by sequential advance from 0xFFFFFFFC (60_exceptions R279). Safe: the spec's own fault. -/
  | pcOverflow (pc : Word)
  deriving DecidableEq, Repr

/-- Why an instruction has no meaning. Every arm of `exec` has one, so no run meets a refusal. -/
inductive Refusal where
  /-- Raised by no instruction of this model. Safe. -/
  | notModelled (mnemonic : String)
  deriving DecidableEq, Repr

/-- The machine status (10_state R31). -/
inductive Status where
  | running
  | faulted (f : Fault)
  deriving DecidableEq, Repr

/-- A device on the bus with the state it holds (10_state R29). A memory device's bytes stand in `State.mem`, by absolute
address (log 9). -/
inductive Device where
  /-- 20_memory R67, with its length. -/
  | memory (length : Word)
  /-- 20_memory R71: `console_buf` and `stdout`, first byte first. -/
  | console (buf out : List Byte)
  /-- 20_memory R70. -/
  | halt (flag : Bool)
  deriving DecidableEq, Repr

/-- A binding of the bus with its device (20_memory R55). -/
structure Port where
  base : Word
  device : Device
  deriving DecidableEq, Repr

/-- Memory: (address, byte) pairs, addresses strictly rising, no byte equal to what an unlisted address reads as. -/
abbrev Memory := List Host.Cell

/-- The complete state (10_state R32), with the two parameters that are read while the machine runs (log 6). -/
structure State where
  /-- `x[0]` to `x[31]` (10_state R20). Read and written through `State.x` and `State.setX` only. -/
  regs : Vector Word 32
  /-- 10_state R25. -/
  pc : Word
  /-- 10_state R26. -/
  hi : Word
  /-- 10_state R26. -/
  lo : Word
  /-- The pending-branch latch (10_state R27). -/
  pending : Option Word
  /-- 10_state R31. -/
  status : Status
  /-- The sorted bindings with the state of their devices (10_state R29). -/
  bus : List Port
  /-- The bytes of the memory devices (20_memory R67). -/
  mem : Memory
  /-- 00_scope R7. -/
  params : Params
  deriving DecidableEq, Repr

/-- The state after construction (10_state R34) from the standard configuration of 95_test_vectors: log 3, 4, 5. -/
def State.reset : State where
  regs := Vector.replicate 32 0#32
  pc := 0x00000000#32
  hi := 0#32
  lo := 0#32
  pending := none
  status := .running
  bus := [⟨0x00000000#32, .memory 0x1000#32⟩, ⟨0x00002000#32, .console [] []⟩, ⟨0x00003000#32, .halt false⟩]
  mem := []
  params := { trapOnOverflow := false, finalFlush := false }

end Sys2Proof.Machine
end

