-- ==== Sys2Proof/Machine/Ops.lean ====
section
/-! DEFINITION. The named operations over registers, memory, the bus and its devices (20_memory), raising a fault
(60_exceptions R272), fetching (10_state R30) and the advance that ends every step. No operation returns from
a fault: none exists (60_exceptions R283). -/

namespace Sys2Proof.Machine

/-- The answer of a meaning. -/
abbrev Answer := Host.Outcome State Fault Refusal

/-! ## General registers -/

/-- `x[r]` (10_state R21, R22): register 0 reads 0. -/
def State.x (s : State) (r : Reg) : Word :=
  if r = 0#5 then 0#32 else s.regs[r.toNat]'(r.isLt)

/-- `x[r] <- v` (10_state R21, R22): a write to register 0 is discarded. -/
def State.setX (s : State) (r : Reg) (v : Word) : State :=
  if r = 0#5 then s else { s with regs := s.regs.set r.toNat v r.isLt }

/-! ## Plain updates of one field -/

/-- `hi <- v`. -/
def State.setHi (s : State) (v : Word) : State := { s with hi := v }
/-- `lo <- v`. -/
def State.setLo (s : State) (v : Word) : State := { s with lo := v }
/-- The memory bytes replaced. -/
def State.setMem (s : State) (m : Memory) : State := { s with mem := m }
/-- The devices replaced. -/
def State.setBus (s : State) (b : List Port) : State := { s with bus := b }
/-- `status <- st`. -/
def State.setStatus (s : State) (st : Status) : State := { s with status := st }
/-- `pc <- a` and `pending <- next`, the end of a step (10_state R30). -/
def State.setFlow (s : State) (a : Word) (next : Option Word) : State := { s with pc := a, pending := next }

/-! ## Memory bytes -/

/-- What an address that is not listed reads as (DESIGN CHOICE, log 5). -/
def Memory.unlisted : Byte := 0#8

/-- One byte (20_memory R67). -/
def Memory.read : Memory → Nat → Byte
  | [], _ => Memory.unlisted
  | (k, c) :: m, a => if k = a then c else Memory.read m a

/-- One byte written (20_memory R67), keeping the canonical form. -/
def Memory.write : Memory → Nat → Byte → Memory
  | [], a, b => if b = Memory.unlisted then [] else [(a, b)]
  | (k, c) :: m, a, b =>
    if a < k then (if b = Memory.unlisted then (k, c) :: m else (a, b) :: (k, c) :: m)
    else if a = k then (if b = Memory.unlisted then m else (a, b) :: m)
    else (k, c) :: Memory.write m a b

/-- The canonical form: addresses strictly rising, no entry equal to what an unlisted address reads as. -/
abbrev Memory.wf (m : Memory) : Prop :=
  m.Pairwise (fun c d => c.1 < d.1) ∧ ∀ c ∈ m, c.2 ≠ Memory.unlisted

/-- The bytes of an access (20_memory R62). -/
def Width.bytes : Width → Nat
  | .byte => 1
  | .half => 2
  | .word => 4

/-- A value cut to the access width, zero-extended to a word (20_memory R63, R70). -/
def Width.truncate (n : Width) (v : Word) : Word :=
  match n with
  | .byte => (v.setWidth 8).setWidth 32
  | .half => (v.setWidth 16).setWidth 32
  | .word => v

/-- `read_byte`, `read_half`, `read_word` at an absolute address, zero-extended to a word (20_memory R68). -/
def Memory.load (m : Memory) (a : Nat) (n : Width) : Word :=
  match n with
  | .byte => (m.read a).setWidth 32
  | .half => (m.read (a + 1) ++ m.read a).setWidth 32
  | .word => wordOfBytes (m.read a) (m.read (a + 1)) (m.read (a + 2)) (m.read (a + 3))

/-- Byte lane `i` of a value (00_scope R9). -/
def lane (v : Word) (i : Nat) : Byte := v.extractLsb' (8 * i) 8

/-- `v[8i+7:8i] <- b` (00_scope R9). -/
def setLane (v : Word) (i : Nat) (b : Byte) : Word :=
  (v &&& ~~~(0xFF#32 <<< (8 * i))) ||| (b.setWidth 32 <<< (8 * i))

/-- `write_byte`, `write_half`, `write_word` at an absolute address (20_memory R68). -/
def Memory.store (m : Memory) (a : Nat) (n : Width) (v : Word) : Memory :=
  match n with
  | .byte => m.write a (lane v 0)
  | .half => (m.write a (lane v 0)).write (a + 1) (lane v 1)
  | .word => (((m.write a (lane v 0)).write (a + 1) (lane v 1)).write (a + 2) (lane v 2)).write (a + 3) (lane v 3)

/-! ## The bus -/

/-- The footprint a device reports (20_memory R53): the console's is 2 bytes (R71), the halt device's 1 byte (R70). -/
def Device.length : Device → Nat
  | .memory len => len.toNat
  | .console _ _ => 2
  | .halt _ => 1

/-- `base + length`, exact (20_memory R52). -/
def Port.limit (p : Port) : Nat := p.base.toNat + p.device.length

/-- `contains` (20_memory R52). -/
def Port.contains (p : Port) (a : Word) : Bool :=
  decide (p.base.toNat ≤ a.toNat) && decide (a.toNat < p.limit)

/-- `route` (20_memory R60): the first binding that contains the address, with the offset from its base. -/
def route : List Port → Word → Option (Port × Nat)
  | [], _ => none
  | p :: ps, a => if p.contains a then some (p, a.toNat - p.base.toNat) else route ps a

/-- The bus with the device that `route` selects changed by `f`. -/
def updateRouted : List Port → Word → (Device → Device) → List Port
  | [], _, _ => []
  | p :: ps, a, f =>
    if p.contains a then { p with device := f p.device } :: ps else p :: updateRouted ps a f

/-- A write of the low bytes of `v` at offset `o` to the console (20_memory R71) or the halt device (R70); a memory device
keeps its bytes elsewhere. -/
def Device.write (o : Nat) (n : Width) (v : Word) : Device → Device
  | .memory len => .memory len
  | .console buf out => if o = 0 then .console (buf ++ [lane v 0]) out else .console [] (out ++ buf)
  | .halt flag => .halt (flag || n.truncate v != 0#32)

/-- `MemRead(a, n)` (20_memory R62), zero-extended to a word. Only the first byte's address is routed (R64). -/
def busRead (kind : Access) (a : Word) (n : Width) (s : State) : Except Fault Word :=
  match route s.bus a with
  | none => .error (.invalidAddress a kind n s.pc)
  | some (p, o) =>
    match p.device with
    | .memory len =>
      if o + n.bytes ≤ len.toNat then .ok (s.mem.load (p.base.toNat + o) n)
      else .error (.deviceRange a kind n s.pc)
    | .console _ _ => .ok 0#32
    | .halt flag => .ok (if flag then 1#32 else 0#32)

/-- `MemWrite(a, n, v)` (20_memory R63). -/
def busWrite (a : Word) (n : Width) (v : Word) (s : State) : Except Fault State :=
  match route s.bus a with
  | none => .error (.invalidAddress a .write n s.pc)
  | some (p, o) =>
    match p.device with
    | .memory len =>
      if o + n.bytes ≤ len.toNat then .ok (s.setMem (s.mem.store (p.base.toNat + o) n v))
      else .error (.deviceRange a .write n s.pc)
    | .console _ _ | .halt _ => .ok (s.setBus (updateRouted s.bus a (Device.write o n v)))

/-! ## Faults -/

/-- `raise F(info)` (60_exceptions R272): the status becomes Faulted, the step ends, `pc` keeps the address of the faulting
instruction. The one trap-like transition of the machine (R282), taken as a next state (log 1). -/
def raise (f : Fault) (s : State) : Answer := .next (s.setStatus (.faulted f))

/-- The code of a fault (60_exceptions R271). -/
def Fault.code : Fault → Nat
  | .illegalInstruction .. => 1
  | .invalidAddress .. => 2
  | .deviceRange .. => 3
  | .divideByZero .. => 4
  | .divideOverflow .. => 5
  | .arithmeticOverflow .. => 6
  | .misalignedFetch .. => 7
  | .branchInDelaySlot .. => 8
  | .unpredictableOperands .. => 9
  | .pcOverflow .. => 10

/-- The `pc` in the info of a fault (60_exceptions R271). -/
def Fault.pc : Fault → Word
  | .illegalInstruction _ pc => pc
  | .invalidAddress _ _ _ pc => pc
  | .deviceRange _ _ _ pc => pc
  | .divideByZero pc => pc
  | .divideOverflow pc => pc
  | .arithmeticOverflow pc => pc
  | .misalignedFetch pc => pc
  | .branchInDelaySlot _ pc => pc
  | .unpredictableOperands _ pc => pc
  | .pcOverflow pc => pc

/-- A word that is no admitted instruction (30_encoding R108): raised at dispatch, nothing else changes. -/
def raiseIllegal (i : Instr) (s : State) : Answer := raise (.illegalInstruction (encode i) s.pc) s

/-! ## The end of a step -/

/-- The last part of the step (10_state R30): a latched target is applied, or `pc` advances by 4, and the handler's `next`
becomes the latch. Sequential advance from 0xFFFFFFFC is PcOverflow (60_exceptions R279), raised after the
handler's effect (R273). -/
def complete (next : Option Word) (s : State) : Answer :=
  match s.pending with
  | some t => .next (s.setFlow t next)
  | none =>
    if s.pc = 0xFFFFFFFC#32 then raise (.pcOverflow s.pc) s
    else .next (s.setFlow (s.pc + 4#32) next)

/-- The end of a handler that may have faulted: a fault is raised in the state its earlier effects left (log 2). -/
def finish : Except (Fault × State) State → Answer
  | .ok s => complete none s
  | .error (f, s) => raise f s

/-- A control-transfer handler (44_control R230, R232): in a delay slot it raises BranchInDelaySlot before it changes any state.
`word` is the instruction's raw word. -/
def transfer (word : Word) (body : State → Answer) (s : State) : Answer :=
  match s.pending with
  | some _ => raise (.branchInDelaySlot word s.pc) s
  | none => body s

/-! ## Fetch -/

/-- The fetch (10_state R30): the alignment check (60_exceptions R276), then a 4-byte bus read at `pc`. -/
def fetch (s : State) : Except Fault Word :=
  if s.pc.extractLsb' 0 2 ≠ 0#2 then .error (.misalignedFetch s.pc)
  else busRead .fetch s.pc .word s

end Sys2Proof.Machine
end

