-- ==== Sys2Proof/Machine/Operands.lean ====
section
/-! DEFINITION. Operand assembly (30_encoding R104), effective addresses (43_loadstore R200), branch and jump targets (44_control
R235, R236) and the byte walks of the unaligned loads and stores (43_loadstore R210). -/

namespace Sys2Proof.Machine

/-- `sext_16(imm)` (00_scope R10). -/
def signImm (imm : BitVec 16) : Word := imm.signExtend 32

/-- `zext_16(imm)` (00_scope R10). -/
def zeroImm (imm : BitVec 16) : Word := imm.setWidth 32

/-- `imm << 16` (30_encoding R104). -/
def upperImm (imm : BitVec 16) : Word := imm.setWidth 32 <<< 16

/-- The variable shift amount `x[rs][4:0]` (30_encoding R104). -/
def shiftAmount (v : Word) : Nat := (v.extractLsb' 0 5).toNat

/-- `ea <- x[rs] + sext_16(imm)`, modulo 2^32 (43_loadstore R200). -/
def State.effAddr (s : State) (rs : Reg) (imm : BitVec 16) : Word := s.x rs + signImm imm

/-- `A + 4 + (sext_16(imm) << 2)`, modulo 2^32 (44_control R235). -/
def branchTarget (pc : Word) (imm : BitVec 16) : Word := pc + 4#32 + (signImm imm <<< 2)

/-- `(A & 0xF0000000) | (zext_26(target) << 2)` (44_control R236). -/
def jumpTarget (pc : Word) (target : BitVec 26) : Word :=
  (pc &&& 0xF0000000#32) ||| (target.setWidth 32 <<< 2)

/-- `A + 8`, modulo 2^32: the link (44_control R233) and the target of a branch not taken (R230). -/
def afterSlot (pc : Word) : Word := pc + 8#32

/-- `sext_8` of a loaded byte (43_loadstore R202). -/
def signByte (v : Word) : Word := (v.setWidth 8).signExtend 32

/-- `sext_16` of a loaded half-word (43_loadstore R204). -/
def signHalf (v : Word) : Word := (v.setWidth 16).signExtend 32

/-- `k = ea[1:0]` (43_loadstore R210). -/
def byteInWord (ea : Word) : Nat := (ea.extractLsb' 0 2).toNat

/-- The walk down of LWL and SWL (43_loadstore R210): (address, lane) of `ea, ea-1, ..., ea-k`, byte `ea - j` being lane `3 - j`. -/
def walkDown (ea : Word) : List (Word × Nat) :=
  (List.range (byteInWord ea + 1)).map (fun j => (ea - BitVec.ofNat 32 j, 3 - j))

/-- The walk up of LWR and SWR (43_loadstore R210): (address, lane) of `ea, ea+1, ..., ea+(3-k)`, byte `ea + j` being lane `j`. -/
def walkUp (ea : Word) : List (Word × Nat) :=
  (List.range (4 - byteInWord ea)).map (fun j => (ea + BitVec.ofNat 32 j, j))

/-- The byte reads of LWL and LWR in order, each put in its lane of `v` (43_loadstore R211, R212). -/
def loadLanes (s : State) : List (Word × Nat) → Word → Except Fault Word
  | [], v => .ok v
  | (a, i) :: rest, v =>
    match busRead .read a .byte s with
    | .error f => .error f
    | .ok b => loadLanes s rest (setLane v i (b.setWidth 8))

/-- The byte writes of SWL and SWR in order, each from its lane of `v` (43_loadstore R213, R214). A fault comes with the state
the earlier bytes left (60_exceptions R273, log 2). -/
def storeLanes (v : Word) : List (Word × Nat) → State → Except (Fault × State) State
  | [], s => .ok s
  | (a, i) :: rest, s =>
    match busWrite a .byte ((lane v i).setWidth 32) s with
    | .error f => .error (f, s)
    | .ok s' => storeLanes v rest s'

end Sys2Proof.Machine
end

