-- ==== Sys2Proof/Machine/AluImmediate.lean ====
section
/-! DEFINITION. 40_alu_immediate.md: ADDI, ADDIU, SLTI, SLTIU, ANDI, ORI, XORI, LUI, with the two shared ends of an arithmetic instruction. -/

namespace Sys2Proof.Machine

/-- An instruction whose whole effect is `x[r] <- v`. -/
def writeResult (r : Reg) (v : Word) (s : State) : Answer := complete none (s.setX r v)

/-- The same under the overflow parameter (R130): an overflowing result raises ArithmeticOverflow and writes no register. -/
def writeTrapping (overflows : Bool) (r : Reg) (v : Word) (s : State) : Answer :=
  if s.params.trapOnOverflow && overflows then raise (.arithmeticOverflow s.pc) s
  else writeResult r v s

/-- R131. -/
def execAddi (rs rt : Reg) (imm : BitVec 16) (s : State) : Answer :=
  writeTrapping (addOverflows (s.x rs) (signImm imm)) rt (s.x rs + signImm imm) s

/-- R132. -/
def execAddiu (rs rt : Reg) (imm : BitVec 16) (s : State) : Answer :=
  writeResult rt (s.x rs + signImm imm) s

/-- R133. -/
def execSlti (rs rt : Reg) (imm : BitVec 16) (s : State) : Answer :=
  writeResult rt (boolWord (signedLess (s.x rs) (signImm imm))) s

/-- R134. -/
def execSltiu (rs rt : Reg) (imm : BitVec 16) (s : State) : Answer :=
  writeResult rt (boolWord (unsignedLess (s.x rs) (signImm imm))) s

/-- R135. -/
def execAndi (rs rt : Reg) (imm : BitVec 16) (s : State) : Answer :=
  writeResult rt (s.x rs &&& zeroImm imm) s

/-- R136. -/
def execOri (rs rt : Reg) (imm : BitVec 16) (s : State) : Answer :=
  writeResult rt (s.x rs ||| zeroImm imm) s

/-- R137. -/
def execXori (rs rt : Reg) (imm : BitVec 16) (s : State) : Answer :=
  writeResult rt (s.x rs ^^^ zeroImm imm) s

/-- R138; the `rs` field is ignored. -/
def execLui (rt : Reg) (imm : BitVec 16) (s : State) : Answer :=
  writeResult rt (upperImm imm) s

end Sys2Proof.Machine
end

