-- ==== Sys2Proof/Machine/AluRegister.lean ====
section
/-! DEFINITION. 41_alu_register.md: register-register arithmetic, logic, compares and shifts. Sources are read before the
destination is written; writing `x[0]` discards the result. -/

namespace Sys2Proof.Machine

/-- R150. -/
def execAdd (rs rt rd : Reg) (s : State) : Answer :=
  writeTrapping (addOverflows (s.x rs) (s.x rt)) rd (s.x rs + s.x rt) s

/-- R151. -/
def execAddu (rs rt rd : Reg) (s : State) : Answer := writeResult rd (s.x rs + s.x rt) s

/-- R152. -/
def execSub (rs rt rd : Reg) (s : State) : Answer :=
  writeTrapping (subOverflows (s.x rs) (s.x rt)) rd (s.x rs - s.x rt) s

/-- R153. -/
def execSubu (rs rt rd : Reg) (s : State) : Answer := writeResult rd (s.x rs - s.x rt) s

/-- R154. -/
def execAnd (rs rt rd : Reg) (s : State) : Answer := writeResult rd (s.x rs &&& s.x rt) s

/-- R155. -/
def execOr (rs rt rd : Reg) (s : State) : Answer := writeResult rd (s.x rs ||| s.x rt) s

/-- R156. -/
def execXor (rs rt rd : Reg) (s : State) : Answer := writeResult rd (s.x rs ^^^ s.x rt) s

/-- R157. -/
def execNor (rs rt rd : Reg) (s : State) : Answer := writeResult rd (~~~(s.x rs ||| s.x rt)) s

/-- R160. -/
def execSlt (rs rt rd : Reg) (s : State) : Answer :=
  writeResult rd (boolWord (signedLess (s.x rs) (s.x rt))) s

/-- R161. -/
def execSltu (rs rt rd : Reg) (s : State) : Answer :=
  writeResult rd (boolWord (unsignedLess (s.x rs) (s.x rt))) s

/-- R162; the `rs` field is ignored. -/
def execSll (rt rd : Reg) (shamt : BitVec 5) (s : State) : Answer :=
  writeResult rd (s.x rt <<< shamt.toNat) s

/-- R163; the `rs` field is ignored. -/
def execSrl (rt rd : Reg) (shamt : BitVec 5) (s : State) : Answer :=
  writeResult rd (s.x rt >>> shamt.toNat) s

/-- R164; the `rs` field is ignored. -/
def execSra (rt rd : Reg) (shamt : BitVec 5) (s : State) : Answer :=
  writeResult rd ((s.x rt).sshiftRight shamt.toNat) s

/-- R165. -/
def execSllv (rs rt rd : Reg) (s : State) : Answer :=
  writeResult rd (s.x rt <<< shiftAmount (s.x rs)) s

/-- R166. -/
def execSrlv (rs rt rd : Reg) (s : State) : Answer :=
  writeResult rd (s.x rt >>> shiftAmount (s.x rs)) s

/-- R167. -/
def execSrav (rs rt rd : Reg) (s : State) : Answer :=
  writeResult rd ((s.x rt).sshiftRight (shiftAmount (s.x rs))) s

end Sys2Proof.Machine
end

