-- ==== Sys2Proof/Machine/Control.lean ====
section
/-! DEFINITION. 44_control.md: branches and jumps. A handler never writes `pc`: it latches a target (R230), which `complete` stores in
the latch and the next instruction's `complete` applies. -/

namespace Sys2Proof.Machine

/-- What a conditional branch latches (R230): its target if taken, else the address after its delay slot. -/
def branchLatch (taken : Bool) (pc : Word) (imm : BitVec 16) : Word :=
  if taken then branchTarget pc imm else afterSlot pc

/-- A conditional branch without link (R240 to R245). -/
def branch (word : Word) (taken : Bool) (imm : BitVec 16) (s : State) : Answer :=
  transfer word (fun s => complete (some (branchLatch taken s.pc imm)) s) s

/-- A conditional branch with link (R246, R247): `rs = 31` is a link-register conflict (R234); the link is written whether or
not the branch is taken (R233). -/
def branchLink (word : Word) (rs : Reg) (taken : Bool) (imm : BitVec 16) (s : State) : Answer :=
  transfer word
    (fun s =>
      if rs = 31#5 then raise (.unpredictableOperands word s.pc) s
      else complete (some (branchLatch taken s.pc imm)) (s.setX 31#5 (afterSlot s.pc)))
    s

/-- R240. -/
def execBeq (rs rt : Reg) (imm : BitVec 16) (s : State) : Answer :=
  branch (encode (.beq rs rt imm)) (s.x rs == s.x rt) imm s

/-- R241. -/
def execBne (rs rt : Reg) (imm : BitVec 16) (s : State) : Answer :=
  branch (encode (.bne rs rt imm)) (s.x rs != s.x rt) imm s

/-- R242; the `rt` field is ignored. -/
def execBlez (rs rt : Reg) (imm : BitVec 16) (s : State) : Answer :=
  branch (encode (.blez rs rt imm)) (isNonPositive (s.x rs)) imm s

/-- R243; the `rt` field is ignored. -/
def execBgtz (rs rt : Reg) (imm : BitVec 16) (s : State) : Answer :=
  branch (encode (.bgtz rs rt imm)) (!isNonPositive (s.x rs)) imm s

/-- R244. -/
def execBltz (rs : Reg) (imm : BitVec 16) (s : State) : Answer :=
  branch (encode (.bltz rs imm)) (isNegative (s.x rs)) imm s

/-- R245. -/
def execBgez (rs : Reg) (imm : BitVec 16) (s : State) : Answer :=
  branch (encode (.bgez rs imm)) (!isNegative (s.x rs)) imm s

/-- R246. -/
def execBltzal (rs : Reg) (imm : BitVec 16) (s : State) : Answer :=
  branchLink (encode (.bltzal rs imm)) rs (isNegative (s.x rs)) imm s

/-- R247. -/
def execBgezal (rs : Reg) (imm : BitVec 16) (s : State) : Answer :=
  branchLink (encode (.bgezal rs imm)) rs (!isNegative (s.x rs)) imm s

/-- R248. -/
def execJ (target : BitVec 26) (s : State) : Answer :=
  transfer (encode (.j target)) (fun s => complete (some (jumpTarget s.pc target)) s) s

/-- R249. -/
def execJal (target : BitVec 26) (s : State) : Answer :=
  transfer (encode (.jal target))
    (fun s => complete (some (jumpTarget s.pc target)) (s.setX 31#5 (afterSlot s.pc))) s

/-- R250; the `rt`, `rd` and `shamt` fields are ignored. The target may be misaligned (R237). -/
def execJr (rs rt rd : Reg) (shamt : BitVec 5) (s : State) : Answer :=
  transfer (encode (.jr rs rt rd shamt)) (fun s => complete (some (s.x rs)) s) s

/-- R251; the `rt` and `shamt` fields are ignored. -/
def execJalr (rs rt rd : Reg) (shamt : BitVec 5) (s : State) : Answer :=
  transfer (encode (.jalr rs rt rd shamt))
    (fun s =>
      if rd = rs ∧ rd ≠ 0#5 then raise (.unpredictableOperands (encode (.jalr rs rt rd shamt)) s.pc) s
      else complete (some (s.x rs)) (s.setX rd (afterSlot s.pc)))
    s

end Sys2Proof.Machine
end

