-- ==== Sys2Proof/Machine/LoadStore.lean ====
section
/-! DEFINITION. 43_loadstore.md: loads and stores. A load into `x[0]` performs its bus reads and discards the value (R200); nothing
faults on misalignment (R201). -/

namespace Sys2Proof.Machine

/-- A load of one bus access (R202 to R206), its value extended by `ext`. -/
def loadWith (ext : Word → Word) (n : Width) (rs rt : Reg) (imm : BitVec 16) (s : State) : Answer :=
  match busRead .read (s.effAddr rs imm) n s with
  | .error f => raise f s
  | .ok v => writeResult rt (ext v) s

/-- A store of one bus access (R207 to R209). -/
def storeWith (n : Width) (rs rt : Reg) (imm : BitVec 16) (s : State) : Answer :=
  match busWrite (s.effAddr rs imm) n (s.x rt) s with
  | .error f => raise f s
  | .ok s' => complete none s'

/-- An unaligned load over a byte walk (R210 to R212), merging into the old `x[rt]`. -/
def loadWalk (walk : List (Word × Nat)) (rt : Reg) (s : State) : Answer :=
  match loadLanes s walk (s.x rt) with
  | .error f => raise f s
  | .ok v => writeResult rt v s

/-- An unaligned store over a byte walk (R210, R213, R214). -/
def storeWalk (walk : List (Word × Nat)) (rt : Reg) (s : State) : Answer :=
  finish (storeLanes (s.x rt) walk s)

/-- R202. -/
def execLb (rs rt : Reg) (imm : BitVec 16) (s : State) : Answer := loadWith signByte .byte rs rt imm s

/-- R203. -/
def execLbu (rs rt : Reg) (imm : BitVec 16) (s : State) : Answer :=
  loadWith Width.byte.truncate .byte rs rt imm s

/-- R204. -/
def execLh (rs rt : Reg) (imm : BitVec 16) (s : State) : Answer := loadWith signHalf .half rs rt imm s

/-- R205. -/
def execLhu (rs rt : Reg) (imm : BitVec 16) (s : State) : Answer :=
  loadWith Width.half.truncate .half rs rt imm s

/-- R206. -/
def execLw (rs rt : Reg) (imm : BitVec 16) (s : State) : Answer :=
  loadWith Width.word.truncate .word rs rt imm s

/-- R207. -/
def execSb (rs rt : Reg) (imm : BitVec 16) (s : State) : Answer := storeWith .byte rs rt imm s

/-- R208. -/
def execSh (rs rt : Reg) (imm : BitVec 16) (s : State) : Answer := storeWith .half rs rt imm s

/-- R209. -/
def execSw (rs rt : Reg) (imm : BitVec 16) (s : State) : Answer := storeWith .word rs rt imm s

/-- R211. -/
def execLwl (rs rt : Reg) (imm : BitVec 16) (s : State) : Answer := loadWalk (walkDown (s.effAddr rs imm)) rt s

/-- R212. -/
def execLwr (rs rt : Reg) (imm : BitVec 16) (s : State) : Answer := loadWalk (walkUp (s.effAddr rs imm)) rt s

/-- R213. -/
def execSwl (rs rt : Reg) (imm : BitVec 16) (s : State) : Answer := storeWalk (walkDown (s.effAddr rs imm)) rt s

/-- R214. -/
def execSwr (rs rt : Reg) (imm : BitVec 16) (s : State) : Answer := storeWalk (walkUp (s.effAddr rs imm)) rt s

end Sys2Proof.Machine
end

