-- ==== Sys2Proof/Machine/MulDiv.lean ====
section
/-! DEFINITION. 42_muldiv.md: multiply, divide and the accumulator moves, computed on exact integers and narrowed at the end. -/

namespace Sys2Proof.Machine

/-- `hi <- h; lo <- l` (10_state R26). -/
def writeHiLo (h l : Word) (s : State) : Answer := complete none ((s.setHi h).setLo l)

/-- A 64-bit product split over the pair (R180, R181). -/
def writeProduct (p : BitVec 64) (s : State) : Answer :=
  writeHiLo (p.extractLsb' 32 32) (p.extractLsb' 0 32) s

/-- R180. -/
def execMult (rs rt : Reg) (s : State) : Answer :=
  writeProduct (BitVec.ofInt 64 ((s.x rs).toInt * (s.x rt).toInt)) s

/-- R181. -/
def execMultu (rs rt : Reg) (s : State) : Answer :=
  writeProduct (BitVec.ofNat 64 ((s.x rs).toNat * (s.x rt).toNat)) s

/-- The quotient truncated toward zero (R182). -/
def divQuotient (a b : Word) : Int := a.toInt.tdiv b.toInt

/-- The remainder `signed(a) - q * signed(b)` (R182). -/
def divRemainder (a b : Word) : Int := a.toInt - divQuotient a b * b.toInt

/-- R182. -/
def execDiv (rs rt : Reg) (s : State) : Answer :=
  if s.x rt = 0#32 then raise (.divideByZero s.pc) s
  else if s.x rs = 0x80000000#32 ∧ s.x rt = 0xFFFFFFFF#32 then raise (.divideOverflow s.pc) s
  else writeHiLo (BitVec.ofInt 32 (divRemainder (s.x rs) (s.x rt)))
    (BitVec.ofInt 32 (divQuotient (s.x rs) (s.x rt))) s

/-- R183. -/
def execDivu (rs rt : Reg) (s : State) : Answer :=
  if s.x rt = 0#32 then raise (.divideByZero s.pc) s
  else writeHiLo (BitVec.ofNat 32 ((s.x rs).toNat % (s.x rt).toNat))
    (BitVec.ofNat 32 ((s.x rs).toNat / (s.x rt).toNat)) s

/-- R184. -/
def execMfhi (rd : Reg) (s : State) : Answer := writeResult rd s.hi s

/-- R185. -/
def execMthi (rs : Reg) (s : State) : Answer := complete none (s.setHi (s.x rs))

/-- R186. -/
def execMflo (rd : Reg) (s : State) : Answer := writeResult rd s.lo s

/-- R187. -/
def execMtlo (rs : Reg) (s : State) : Answer := complete none (s.setLo (s.x rs))

end Sys2Proof.Machine
end

