-- ==== Sys2Proof/Machine/System.lean ====
section
/-! DEFINITION. 45_system.md: the encodings of system calls, breakpoints and coprocessors. Each raises IllegalInstruction with the raw word
and `pc`, and has no other effect. -/

namespace Sys2Proof.Machine

/-- R260. -/
def execSyscall (code : BitVec 20) (s : State) : Answer := raiseIllegal (.syscall code) s

/-- R261 (BREAK). -/
def execBrk (code : BitVec 20) (s : State) : Answer := raiseIllegal (.brk code) s

/-- R262. -/
def execCop0 (rest : BitVec 26) (s : State) : Answer := raiseIllegal (.cop0 rest) s

/-- R262. -/
def execCop1 (rest : BitVec 26) (s : State) : Answer := raiseIllegal (.cop1 rest) s

/-- R262. -/
def execCop2 (rest : BitVec 26) (s : State) : Answer := raiseIllegal (.cop2 rest) s

/-- R262. -/
def execCop3 (rest : BitVec 26) (s : State) : Answer := raiseIllegal (.cop3 rest) s

/-- R262, raised before any memory access. -/
def execLwc0 (rest : BitVec 26) (s : State) : Answer := raiseIllegal (.lwc0 rest) s

/-- R262, raised before any memory access. -/
def execLwc1 (rest : BitVec 26) (s : State) : Answer := raiseIllegal (.lwc1 rest) s

/-- R262, raised before any memory access. -/
def execLwc2 (rest : BitVec 26) (s : State) : Answer := raiseIllegal (.lwc2 rest) s

/-- R262, raised before any memory access. -/
def execLwc3 (rest : BitVec 26) (s : State) : Answer := raiseIllegal (.lwc3 rest) s

/-- R262, raised before any memory access. -/
def execSwc0 (rest : BitVec 26) (s : State) : Answer := raiseIllegal (.swc0 rest) s

/-- R262, raised before any memory access. -/
def execSwc1 (rest : BitVec 26) (s : State) : Answer := raiseIllegal (.swc1 rest) s

/-- R262, raised before any memory access. -/
def execSwc2 (rest : BitVec 26) (s : State) : Answer := raiseIllegal (.swc2 rest) s

/-- R262, raised before any memory access. -/
def execSwc3 (rest : BitVec 26) (s : State) : Answer := raiseIllegal (.swc3 rest) s

end Sys2Proof.Machine
end

