-- ==== Sys2Proof/Machine/Step.lean ====
section
/-! DEFINITION. One step (10_state R30): fetch, decode, dispatch, execute and the advance of `pc`. -/

namespace Sys2Proof.Machine

/-- `step` (10_state R30, R31). A faulted machine takes no step and answers its fault; the meanings end with `complete`, which
advances `pc` and stores the latch (log 7). -/
def step (s : State) : Host.Outcome State Fault Refusal :=
  match s.status with
  | .faulted f => .fault f
  | .running =>
    match fetch s with
    | .error f => raise f s
    | .ok w =>
      match decodeWord w with
      | .error _ => raise (.illegalInstruction w s.pc) s
      | .ok i => exec i s

/-- `s` with the word of the opcode table stored in memory where the next step fetches (log 11). -/
def State.withFetchWord (s : State) (nbits w : Nat) : State :=
  s.setMem (s.mem.store s.pc.toNat .word (tableWord nbits w))

end Sys2Proof.Machine
end

