-- ==== Sys2Proof/Machine/Construct.lean ====
section
/-! DEFINITION. Construction from a launch (70_reset R300 to R302): the bus sorted and checked (20_memory R55 to R57), the memory
devices populated, the CPU built with ENTRY and the loader's registers. -/

namespace Sys2Proof.Machine

/-- A device as it is constructed (10_state R34): empty buffers, the halt flag clear. -/
def freshDevice : DeviceKind → Device
  | .memory len => .memory len
  | .console => .console [] []
  | .halt => .halt false

/-- A binding with its fresh device. -/
def freshPort (b : Binding) : Port := ⟨b.base, freshDevice b.kind⟩

/-- One step of `sortPorts`. -/
def insertPort (p : Port) : List Port → List Port
  | [] => [p]
  | q :: qs => if p.base.toNat ≤ q.base.toNat then p :: q :: qs else q :: insertPort p qs

/-- The bindings in ascending order of base address (20_memory R55). -/
def sortPorts : List Port → List Port
  | [] => []
  | p :: ps => insertPort p (sortPorts ps)

/-- A binding that construction does not reject by itself (20_memory R57). -/
def Port.valid (p : Port) : Bool := decide (p.device.length ≠ 0) && decide (p.limit ≤ 2 ^ 32)

/-- The overlap scan with its high-water mark (20_memory R56). -/
def overlapFree : Nat → List Port → Bool
  | _, [] => true
  | hw, p :: ps => decide (hw ≤ p.base.toNat) && overlapFree (max hw p.limit) ps

/-- Whether a memory device's range holds an address. -/
def Port.holdsByte (p : Port) (a : Nat) : Bool :=
  match p.device with
  | .memory _ => decide (p.base.toNat ≤ a) && decide (a < p.limit)
  | .console _ _ | .halt _ => false

/-- The memory devices populated with MEM_INIT (70_reset R302); a byte outside them is dropped (log 15). -/
def populate (bus : List Port) : List Host.Cell → Memory → Memory
  | [], m => m
  | (a, b) :: cells, m =>
    populate bus cells (if bus.any (fun p => p.holdsByte a) then m.write a b else m)

/-- LOADER_REGS applied (70_reset R301). -/
def applyLoader : List (Reg × Word) → State → State
  | [], s => s
  | (r, v) :: rest, s => applyLoader rest (s.setX r v)

/-- A machine in the reset state, or a configuration failure (70_reset R302, 60_exceptions R274). When a list has both an
invalid and an overlapping binding, ConfigInvalid is reported (log 14). -/
def construct (l : Launch) : Except ConfigError State :=
  let bus := sortPorts (l.bindings.map freshPort)
  if bus.all Port.valid then
    if overlapFree 0 bus then
      .ok (applyLoader l.loaderRegs
        { regs := l.regInit.set 0 0#32
          pc := l.entry
          hi := l.hiInit
          lo := l.loInit
          pending := none
          status := .running
          bus := bus
          mem := populate bus l.memInit []
          params := l.params })
    else .error .configOverlap
  else .error .configInvalid

end Sys2Proof.Machine
end

