-- ==== Sys2Proof/WellFormed.lean ====
section
/-! DEFINITION. What the spec asks of an instruction before it runs: that it is one of the 56 admitted ones (00_scope R3)
and that its operands are not a link-register conflict (44_control R234). Every field has its encoding's
exact width by type, so no field can be out of range. An instruction that fails a check still has a
meaning: the fault the spec gives it (log 13). -/

namespace Sys2Proof

/-- 00_scope R3: the 56 rows of the opcode table not marked illegal. -/
def Instr.admitted : Instr → Bool
  | .syscall _ | .brk _ => false
  | .cop0 _ | .cop1 _ | .cop2 _ | .cop3 _ => false
  | .lwc0 _ | .lwc1 _ | .lwc2 _ | .lwc3 _ => false
  | .swc0 _ | .swc1 _ | .swc2 _ | .swc3 _ => false
  | .addi .. | .addiu .. | .slti .. | .sltiu .. | .andi .. | .ori .. | .xori .. | .lui .. => true
  | .add .. | .addu .. | .sub .. | .subu .. | .and .. | .or .. | .xor .. | .nor .. => true
  | .slt .. | .sltu .. | .sll .. | .srl .. | .sra .. | .sllv .. | .srlv .. | .srav .. => true
  | .mult .. | .multu .. | .div .. | .divu .. | .mfhi .. | .mthi .. | .mflo .. | .mtlo .. => true
  | .lb .. | .lbu .. | .lh .. | .lhu .. | .lw .. | .sb .. | .sh .. | .sw .. => true
  | .lwl .. | .lwr .. | .swl .. | .swr .. => true
  | .beq .. | .bne .. | .blez .. | .bgtz .. | .bltz .. | .bgez .. | .bltzal .. | .bgezal .. => true
  | .j .. | .jal .. | .jr .. | .jalr .. => true

/-- 44_control R234: the operand forms that are not a link-register conflict. -/
def Instr.operandsPredictable : Instr → Bool
  | .jalr rs _ rd _ => !(rd == rs && rd != 0#5)
  | .bltzal rs _ | .bgezal rs _ => rs != 31#5
  | _ => true

/-- Both checks. -/
def Instr.wellFormed (i : Instr) : Bool := i.admitted && i.operandsPredictable

/-- 44_control: the control-transfer instructions, which may not stand in a delay slot (10_state R30). -/
def Instr.isControlTransfer : Instr → Bool
  | .beq .. | .bne .. | .blez .. | .bgtz .. | .bltz .. | .bgez .. | .bltzal .. | .bgezal .. => true
  | .j .. | .jal .. | .jr .. | .jalr .. => true
  | _ => false

end Sys2Proof
end

