-- ==== Sys2Proof/Safety.lean ====
section
/-! DEFINITION. The terms claims are stated in: the invariant of every run, what an instruction may write, and the run loop with the
end of a run (70_reset R310, R311). -/

namespace Sys2Proof

/-- The general register an instruction may write (10_state R22). -/
def Instr.destination : Instr → Option Reg
  | .addi _ rt _ | .addiu _ rt _ | .slti _ rt _ | .sltiu _ rt _ => some rt
  | .andi _ rt _ | .ori _ rt _ | .xori _ rt _ | .lui _ rt _ => some rt
  | .add _ _ rd _ | .addu _ _ rd _ | .sub _ _ rd _ | .subu _ _ rd _ => some rd
  | .and _ _ rd _ | .or _ _ rd _ | .xor _ _ rd _ | .nor _ _ rd _ => some rd
  | .slt _ _ rd _ | .sltu _ _ rd _ | .sll _ _ rd _ | .srl _ _ rd _ => some rd
  | .sra _ _ rd _ | .sllv _ _ rd _ | .srlv _ _ rd _ | .srav _ _ rd _ => some rd
  | .mfhi _ _ rd _ | .mflo _ _ rd _ => some rd
  | .lb _ rt _ | .lbu _ rt _ | .lh _ rt _ | .lhu _ rt _ | .lw _ rt _ => some rt
  | .lwl _ rt _ | .lwr _ rt _ => some rt
  | .bltzal _ _ | .bgezal _ _ | .jal _ => some 31#5
  | .jalr _ _ rd _ => some rd
  | _ => none

/-- 10_state R26: the instructions that write `hi` or `lo`. -/
def Instr.writesHiLo : Instr → Bool
  | .mult .. | .multu .. | .div .. | .divu .. | .mthi .. | .mtlo .. => true
  | _ => false

/-- 43_loadstore: the instructions that write memory or a device. -/
def Instr.isStore : Instr → Bool
  | .sb .. | .sh .. | .sw .. | .swl .. | .swr .. => true
  | _ => false

end Sys2Proof

namespace Sys2Proof.Machine

/-- A machine that may take a step (10_state R31). -/
abbrev State.Running (s : State) : Prop := s.status = .running

/-- The next sequential instruction is in the address space, or a latch is pending (60_exceptions R279). -/
abbrev State.Advances (s : State) : Prop := s.pending = none → s.pc ≠ 0xFFFFFFFC#32

/-- Where `pc` goes at the end of a step that advances (10_state R30). -/
def State.nextPc (s : State) : Word :=
  match s.pending with
  | some t => t
  | none => s.pc + 4#32

/-- An answer that takes a fault (60_exceptions R272): the next state's status is the fault, and its `pc` is the one the info
records, the address of the faulting instruction. Nothing else of that state is said (R273). -/
def Raises (ans : Answer) (f : Fault) : Prop :=
  ∃ t, ans = .next t ∧ t.status = .faulted f ∧ t.pc = f.pc

/-- The mapping of each binding, without the state of its device (20_memory R52). -/
def Port.mapping (p : Port) : Word × Nat := (p.base, p.device.length)

/-- A bus that construction accepts (20_memory R55 to R57). -/
abbrev busWf (bus : List Port) : Prop := bus.all Port.valid = true ∧ overlapFree 0 bus = true

/-- Every listed byte lies in a memory device (10_state R29: there are no others). -/
abbrev State.memMapped (s : State) : Prop := ∀ c ∈ s.mem, s.bus.any (fun p => p.holdsByte c.1) = true

/-- What holds at reset and is kept by every step: memory in canonical form and inside the memory devices, a bus that
construction accepts, and slot 0 of the register file never written (10_state R21). -/
abbrev State.Inv (s : State) : Prop :=
  s.mem.wf ∧ busWf s.bus ∧ s.memMapped ∧ s.regs[0] = 0#32

/-- An address of a memory device with room for `n` bytes (20_memory R69), so that an access there neither faults nor
reaches another device. -/
abbrev State.inMemory (s : State) (a : Word) (n : Nat) : Prop :=
  ∃ p len, route s.bus a = some (p, a.toNat - p.base.toNat) ∧ p.device = .memory len ∧
    a.toNat + n ≤ p.base.toNat + len.toNat

/-- Whether a halt device's flag is set, polled between steps (70_reset R310; several devices: log 12). -/
def State.haltSet (s : State) : Bool :=
  s.bus.any (fun p => match p.device with
    | .halt flag => flag
    | .memory _ | .console _ _ => false)

/-- The output of one device at the end of a run (70_reset R311; after a fault: log 17). -/
def Port.output (finalFlush : Bool) (p : Port) : List Byte :=
  match p.device with
  | .console buf out => if finalFlush then out ++ buf else out
  | .memory _ | .halt _ => []

/-- A run's observable output: `stdout`, with `console_buf` appended when FINAL_FLUSH holds (70_reset R311). R311 leaves open
whether the host flushes the console on a fault: DESIGN CHOICE, unsafe, the output of a faulted state, and of a state where
the run has not ended, is taken by the same rule as that of a halted one (log 17; several consoles: log 12). -/
def State.observableOutput (s : State) : List Byte :=
  s.bus.flatMap (fun p => p.output s.params.finalFlush)

/-- How far the run loop got (70_reset R311). -/
inductive RunEnd where
  /-- The one final outcome. -/
  | halted (s : State)
  /-- Never final. -/
  | faulted (f : Fault) (s : State)
  /-- The step budget ended first; a run that never leaves this case diverges. -/
  | unfinished (s : State)
  deriving DecidableEq, Repr

/-- The run loop (70_reset R310) for at most `n` steps: status first, then the halt flag, then a step. -/
def runLoop : Nat → State → RunEnd
  | n, s =>
    match s.status with
    | .faulted f => .faulted f s
    | .running =>
      if s.haltSet then .halted s
      else
        match n with
        | 0 => .unfinished s
        | n + 1 =>
          match step s with
          | .next s' => runLoop n s'
          | .fault f => .faulted f s
          | .refused _ => .unfinished s

/-- A run that ends as a final outcome within `n` steps (70_reset R311). -/
def endsHalted (n : Nat) (s : State) : Bool :=
  match runLoop n s with
  | .halted _ => true
  | .faulted _ _ | .unfinished _ => false

end Sys2Proof.Machine
end

