-- ==== Sys2Proof/Certificates/Slice0/Obligations.lean ====
section
/-! DEFINITION. The statements for the provers. Each docstring names the rules of spec/ it formalises.

Shape of the result statements: for every state in which the step can advance, `exec` answers the WHOLE next state as an
equation, so the frame (every other register, `hi`, `lo`, memory, devices, status, parameters) is stated with the result. -/

open Sys2Proof Sys2Proof.Machine

/-! ## Registers -/

/-- 10_state R21. -/
def Obligations.RegisterZeroIsHardwired : Prop :=
  ∀ (s : State) (v : Word), s.x 0#5 = 0#32 ∧ s.setX 0#5 v = s ∧ (s.setX 0#5 v).x 0#5 = 0#32

/-- 10_state R22: a read returns the last value written, and a write changes no other register and no other state. -/
def Obligations.RegistersAreStorage : Prop :=
  ∀ (s : State) (r q : Reg) (v : Word),
    (s.setX r v).x q = (if q = r ∧ r ≠ 0#5 then v else s.x q) ∧
    (s.setX r v).pc = s.pc ∧ (s.setX r v).hi = s.hi ∧ (s.setX r v).lo = s.lo ∧
    (s.setX r v).pending = s.pending ∧ (s.setX r v).status = s.status ∧
    (s.setX r v).bus = s.bus ∧ (s.setX r v).mem = s.mem ∧ (s.setX r v).params = s.params

/-- 10_state R22: an instruction writes at most the general register its rule names. -/
def Obligations.OnlyDestinationRegisterChanges : Prop :=
  ∀ (i : Instr) (s t : State), s.Running → exec i s = .next t → t.Running →
    ∀ q, i.destination ≠ some q → t.x q = s.x q

/-- 10_state R26: only MULT, MULTU, DIV, DIVU, MTHI and MTLO change `hi` or `lo`; MTHI leaves `lo` and MTLO leaves `hi`. -/
def Obligations.OnlyMulDivAndMovesChangeHiLo : Prop :=
  ∀ (i : Instr) (s t : State), s.Running → exec i s = .next t → t.Running →
    (i.writesHiLo = false → t.hi = s.hi ∧ t.lo = s.lo) ∧
    (∀ rs rt rd sh, i = .mthi rs rt rd sh → t.lo = s.lo) ∧
    (∀ rs rt rd sh, i = .mtlo rs rt rd sh → t.hi = s.hi)

/-- 20_memory R72, 43_loadstore: an instruction that is no store changes no byte of memory and no device. -/
def Obligations.OnlyStoresChangeMemoryAndDevices : Prop :=
  ∀ (i : Instr) (s t : State), s.Running → exec i s = .next t → t.Running → i.isStore = false →
    t.mem = s.mem ∧ t.bus = s.bus

/-! ## Immediate arithmetic and logic (40_alu_immediate) -/

/-- R132 to R138, encodings included. -/
def Obligations.AluImmediateResults : Prop :=
  ∀ (rs rt : Reg) (imm : BitVec 16) (s : State), s.Advances →
    let done (v : Word) : Answer := .next ((s.setX rt v).setFlow s.nextPc none)
    (encode (.addiu rs rt imm) = 0x09#6 ++ rs ++ rt ++ imm ∧
      exec (.addiu rs rt imm) s = done (s.x rs + imm.signExtend 32)) ∧
    (encode (.slti rs rt imm) = 0x0A#6 ++ rs ++ rt ++ imm ∧
      exec (.slti rs rt imm) s = done (if (s.x rs).toInt < imm.toInt then 1#32 else 0#32)) ∧
    (encode (.sltiu rs rt imm) = 0x0B#6 ++ rs ++ rt ++ imm ∧
      exec (.sltiu rs rt imm) s =
        done (if (s.x rs).toNat < (imm.signExtend 32).toNat then 1#32 else 0#32)) ∧
    (encode (.andi rs rt imm) = 0x0C#6 ++ rs ++ rt ++ imm ∧
      exec (.andi rs rt imm) s = done (s.x rs &&& imm.setWidth 32)) ∧
    (encode (.ori rs rt imm) = 0x0D#6 ++ rs ++ rt ++ imm ∧
      exec (.ori rs rt imm) s = done (s.x rs ||| imm.setWidth 32)) ∧
    (encode (.xori rs rt imm) = 0x0E#6 ++ rs ++ rt ++ imm ∧
      exec (.xori rs rt imm) s = done (s.x rs ^^^ imm.setWidth 32)) ∧
    (encode (.lui rs rt imm) = 0x0F#6 ++ rs ++ rt ++ imm ∧
      exec (.lui rs rt imm) s = done (BitVec.ofNat 32 (imm.toNat * 2 ^ 16)))

/-- R131 and R130: ADDI wraps unless TRAP_ON_OVERFLOW holds and the exact sum leaves the signed range; then it raises and
writes no register. -/
def Obligations.AddImmediateResult : Prop :=
  ∀ (rs rt : Reg) (imm : BitVec 16) (s : State),
    let sum : Int := (s.x rs).toInt + imm.toInt
    let overflow : Prop := sum < -2 ^ 31 ∨ 2 ^ 31 - 1 < sum
    encode (.addi rs rt imm) = 0x08#6 ++ rs ++ rt ++ imm ∧
    (s.Advances → ¬(s.params.trapOnOverflow = true ∧ overflow) →
      exec (.addi rs rt imm) s =
        .next ((s.setX rt (s.x rs + imm.signExtend 32)).setFlow s.nextPc none)) ∧
    (s.params.trapOnOverflow = true → overflow →
      Raises (exec (.addi rs rt imm) s) (.arithmeticOverflow s.pc) ∧
      ∀ t, exec (.addi rs rt imm) s = .next t → ∀ q, t.x q = s.x q)

/-! ## Register arithmetic, logic, compares and shifts (41_alu_register) -/

/-- R150, R152 and R130. -/
def Obligations.AddSubResults : Prop :=
  ∀ (rs rt rd : Reg) (sh : BitVec 5) (s : State),
    let out (r : Int) : Prop := r < -2 ^ 31 ∨ 2 ^ 31 - 1 < r
    let addOut : Prop := out ((s.x rs).toInt + (s.x rt).toInt)
    let subOut : Prop := out ((s.x rs).toInt - (s.x rt).toInt)
    (encode (.add rs rt rd sh) = 0x00#6 ++ rs ++ rt ++ rd ++ sh ++ 0x20#6 ∧
      encode (.sub rs rt rd sh) = 0x00#6 ++ rs ++ rt ++ rd ++ sh ++ 0x22#6) ∧
    (s.Advances → ¬(s.params.trapOnOverflow = true ∧ addOut) →
      exec (.add rs rt rd sh) s = .next ((s.setX rd (s.x rs + s.x rt)).setFlow s.nextPc none)) ∧
    (s.Advances → ¬(s.params.trapOnOverflow = true ∧ subOut) →
      exec (.sub rs rt rd sh) s = .next ((s.setX rd (s.x rs - s.x rt)).setFlow s.nextPc none)) ∧
    (s.params.trapOnOverflow = true → addOut →
      Raises (exec (.add rs rt rd sh) s) (.arithmeticOverflow s.pc) ∧
      ∀ t, exec (.add rs rt rd sh) s = .next t → ∀ q, t.x q = s.x q) ∧
    (s.params.trapOnOverflow = true → subOut →
      Raises (exec (.sub rs rt rd sh) s) (.arithmeticOverflow s.pc) ∧
      ∀ t, exec (.sub rs rt rd sh) s = .next t → ∀ q, t.x q = s.x q)

/-- R151, R153 to R157, R160, R161, encodings included. -/
def Obligations.RegisterArithmeticLogicResults : Prop :=
  ∀ (rs rt rd : Reg) (sh : BitVec 5) (s : State), s.Advances →
    let done (v : Word) : Answer := .next ((s.setX rd v).setFlow s.nextPc none)
    let word (funct : BitVec 6) : Word := 0x00#6 ++ rs ++ rt ++ rd ++ sh ++ funct
    (encode (.addu rs rt rd sh) = word 0x21#6 ∧
      exec (.addu rs rt rd sh) s = done (BitVec.ofNat 32 ((s.x rs).toNat + (s.x rt).toNat))) ∧
    (encode (.subu rs rt rd sh) = word 0x23#6 ∧
      exec (.subu rs rt rd sh) s = done (BitVec.ofInt 32 ((s.x rs).toNat - (s.x rt).toNat))) ∧
    (encode (.and rs rt rd sh) = word 0x24#6 ∧ exec (.and rs rt rd sh) s = done (s.x rs &&& s.x rt)) ∧
    (encode (.or rs rt rd sh) = word 0x25#6 ∧ exec (.or rs rt rd sh) s = done (s.x rs ||| s.x rt)) ∧
    (encode (.xor rs rt rd sh) = word 0x26#6 ∧ exec (.xor rs rt rd sh) s = done (s.x rs ^^^ s.x rt)) ∧
    (encode (.nor rs rt rd sh) = word 0x27#6 ∧
      exec (.nor rs rt rd sh) s = done (~~~(s.x rs) &&& ~~~(s.x rt))) ∧
    (encode (.slt rs rt rd sh) = word 0x2A#6 ∧
      exec (.slt rs rt rd sh) s = done (if (s.x rs).toInt < (s.x rt).toInt then 1#32 else 0#32)) ∧
    (encode (.sltu rs rt rd sh) = word 0x2B#6 ∧
      exec (.sltu rs rt rd sh) s = done (if (s.x rs).toNat < (s.x rt).toNat then 1#32 else 0#32))

/-- R162 to R164, as arithmetic: a left shift multiplies modulo 2^32, a logical right shift divides the unsigned value, an
arithmetic right shift divides the signed value rounding down. -/
def Obligations.ConstantShiftResults : Prop :=
  ∀ (rs rt rd : Reg) (sh : BitVec 5) (s : State), s.Advances →
    let done (v : Word) : Answer := .next ((s.setX rd v).setFlow s.nextPc none)
    let word (funct : BitVec 6) : Word := 0x00#6 ++ rs ++ rt ++ rd ++ sh ++ funct
    (encode (.sll rs rt rd sh) = word 0x00#6 ∧ encode (.sll 0#5 0#5 0#5 0#5) = 0x00000000#32 ∧
      exec (.sll rs rt rd sh) s = done (BitVec.ofNat 32 ((s.x rt).toNat * 2 ^ sh.toNat))) ∧
    (encode (.srl rs rt rd sh) = word 0x02#6 ∧
      exec (.srl rs rt rd sh) s = done (BitVec.ofNat 32 ((s.x rt).toNat / 2 ^ sh.toNat))) ∧
    (encode (.sra rs rt rd sh) = word 0x03#6 ∧
      exec (.sra rs rt rd sh) s = done (BitVec.ofInt 32 ((s.x rt).toInt / 2 ^ sh.toNat)))

/-- R165 to R167: the same with the amount `x[rs]` modulo 32. -/
def Obligations.VariableShiftResults : Prop :=
  ∀ (rs rt rd : Reg) (sh : BitVec 5) (s : State), s.Advances →
    let done (v : Word) : Answer := .next ((s.setX rd v).setFlow s.nextPc none)
    let word (funct : BitVec 6) : Word := 0x00#6 ++ rs ++ rt ++ rd ++ sh ++ funct
    let amount : Nat := (s.x rs).toNat % 32
    (encode (.sllv rs rt rd sh) = word 0x04#6 ∧
      exec (.sllv rs rt rd sh) s = done (BitVec.ofNat 32 ((s.x rt).toNat * 2 ^ amount))) ∧
    (encode (.srlv rs rt rd sh) = word 0x06#6 ∧
      exec (.srlv rs rt rd sh) s = done (BitVec.ofNat 32 ((s.x rt).toNat / 2 ^ amount))) ∧
    (encode (.srav rs rt rd sh) = word 0x07#6 ∧
      exec (.srav rs rt rd sh) s = done (BitVec.ofInt 32 ((s.x rt).toInt / 2 ^ amount)))

/-! ## Multiply, divide and accumulator moves (42_muldiv) -/

/-- R180, R181: the pair holds the exact 64-bit product, signed or unsigned. -/
def Obligations.MultiplyResults : Prop :=
  ∀ (rs rt rd : Reg) (sh : BitVec 5) (s : State), s.Advances →
    (encode (.mult rs rt rd sh) = 0x00#6 ++ rs ++ rt ++ rd ++ sh ++ 0x18#6 ∧
      encode (.multu rs rt rd sh) = 0x00#6 ++ rs ++ rt ++ rd ++ sh ++ 0x19#6) ∧
    (∃ h l : Word, exec (.mult rs rt rd sh) s = .next (((s.setHi h).setLo l).setFlow s.nextPc none) ∧
      (h ++ l).toInt = (s.x rs).toInt * (s.x rt).toInt) ∧
    (∃ h l : Word, exec (.multu rs rt rd sh) s = .next (((s.setHi h).setLo l).setFlow s.nextPc none) ∧
      (h ++ l).toNat = (s.x rs).toNat * (s.x rt).toNat)

/-- R182: the quotient truncated toward zero in `lo`, the remainder in `hi`; the two faulting forms write neither. -/
def Obligations.SignedDivideResult : Prop :=
  ∀ (rs rt rd : Reg) (sh : BitVec 5) (s : State),
    let a : Int := (s.x rs).toInt
    let b : Int := (s.x rt).toInt
    encode (.div rs rt rd sh) = 0x00#6 ++ rs ++ rt ++ rd ++ sh ++ 0x1A#6 ∧
    (s.Advances → b ≠ 0 → ¬(a = -2 ^ 31 ∧ b = -1) →
      ∃ q r : Word, exec (.div rs rt rd sh) s = .next (((s.setHi r).setLo q).setFlow s.nextPc none) ∧
        q.toInt = a.tdiv b ∧ a = q.toInt * b + r.toInt) ∧
    (b = 0 → Raises (exec (.div rs rt rd sh) s) (.divideByZero s.pc)) ∧
    (a = -2 ^ 31 → b = -1 → Raises (exec (.div rs rt rd sh) s) (.divideOverflow s.pc)) ∧
    (b = 0 ∨ (a = -2 ^ 31 ∧ b = -1) →
      ∀ t, exec (.div rs rt rd sh) s = .next t → t.hi = s.hi ∧ t.lo = s.lo)

/-- R183. -/
def Obligations.UnsignedDivideResult : Prop :=
  ∀ (rs rt rd : Reg) (sh : BitVec 5) (s : State),
    let a : Nat := (s.x rs).toNat
    let b : Nat := (s.x rt).toNat
    encode (.divu rs rt rd sh) = 0x00#6 ++ rs ++ rt ++ rd ++ sh ++ 0x1B#6 ∧
    (s.Advances → b ≠ 0 →
      ∃ q r : Word, exec (.divu rs rt rd sh) s = .next (((s.setHi r).setLo q).setFlow s.nextPc none) ∧
        a = q.toNat * b + r.toNat ∧ r.toNat < b) ∧
    (b = 0 → Raises (exec (.divu rs rt rd sh) s) (.divideByZero s.pc) ∧
      ∀ t, exec (.divu rs rt rd sh) s = .next t → t.hi = s.hi ∧ t.lo = s.lo)

/-- R184 to R187. -/
def Obligations.AccumulatorMoveResults : Prop :=
  ∀ (rs rt rd : Reg) (sh : BitVec 5) (s : State), s.Advances →
    let word (funct : BitVec 6) : Word := 0x00#6 ++ rs ++ rt ++ rd ++ sh ++ funct
    (encode (.mfhi rs rt rd sh) = word 0x10#6 ∧
      exec (.mfhi rs rt rd sh) s = .next ((s.setX rd s.hi).setFlow s.nextPc none)) ∧
    (encode (.mthi rs rt rd sh) = word 0x11#6 ∧
      exec (.mthi rs rt rd sh) s = .next ((s.setHi (s.x rs)).setFlow s.nextPc none)) ∧
    (encode (.mflo rs rt rd sh) = word 0x12#6 ∧
      exec (.mflo rs rt rd sh) s = .next ((s.setX rd s.lo).setFlow s.nextPc none)) ∧
    (encode (.mtlo rs rt rd sh) = word 0x13#6 ∧
      exec (.mtlo rs rt rd sh) s = .next ((s.setLo (s.x rs)).setFlow s.nextPc none))

/-! ## Loads and stores (43_loadstore) -/

/-- R202 to R206 in a memory device, with R51's byte order and R76's lack of an alignment fault. -/
def Obligations.LoadResultsFromMemory : Prop :=
  ∀ (rs rt : Reg) (imm : BitVec 16) (s : State), s.Advances →
    let ea : Word := s.x rs + imm.signExtend 32
    let byte (k : Nat) : Byte := s.mem.read (ea.toNat + k)
    let done (v : Word) : Answer := .next ((s.setX rt v).setFlow s.nextPc none)
    (s.inMemory ea 1 →
      exec (.lb rs rt imm) s = done ((byte 0).signExtend 32) ∧
      exec (.lbu rs rt imm) s = done ((byte 0).setWidth 32)) ∧
    (s.inMemory ea 2 →
      exec (.lh rs rt imm) s = done ((byte 1 ++ byte 0).signExtend 32) ∧
      exec (.lhu rs rt imm) s = done ((byte 1 ++ byte 0).setWidth 32)) ∧
    (s.inMemory ea 4 →
      exec (.lw rs rt imm) s = done (byte 3 ++ byte 2 ++ byte 1 ++ byte 0))

/-- R202 to R206 from the console (20_memory R71: 0) and the halt device (R70: 0 or 1). -/
def Obligations.LoadResultsFromDevices : Prop :=
  ∀ (rs rt : Reg) (imm : BitVec 16) (s : State) (p : Port) (o : Nat), s.Advances →
    route s.bus (s.x rs + imm.signExtend 32) = some (p, o) →
    let loads : List Instr := [.lb rs rt imm, .lbu rs rt imm, .lh rs rt imm, .lhu rs rt imm, .lw rs rt imm]
    (∀ buf out, p.device = .console buf out →
      ∀ i ∈ loads, exec i s = .next ((s.setX rt 0#32).setFlow s.nextPc none)) ∧
    (∀ flag, p.device = .halt flag →
      ∀ i ∈ loads, exec i s =
        .next ((s.setX rt (if flag then 1#32 else 0#32)).setFlow s.nextPc none))

/-- R201, R200: a load or store of one access faults when no binding covers its address (20_memory R61) or it runs past a
memory device's end (R69); a load into `x[0]` too (R200). -/
def Obligations.LoadStoreFaults : Prop :=
  ∀ (rs rt : Reg) (imm : BitVec 16) (s : State),
    let ea : Word := s.x rs + imm.signExtend 32
    let accesses : List (Instr × Access × Width) :=
      [(.lb rs rt imm, .read, .byte), (.lbu rs rt imm, .read, .byte), (.lh rs rt imm, .read, .half),
       (.lhu rs rt imm, .read, .half), (.lw rs rt imm, .read, .word), (.sb rs rt imm, .write, .byte),
       (.sh rs rt imm, .write, .half), (.sw rs rt imm, .write, .word)]
    ∀ i k n, (i, k, n) ∈ accesses →
      (route s.bus ea = none → Raises (exec i s) (.invalidAddress ea k n s.pc)) ∧
      (∀ p o len, route s.bus ea = some (p, o) → p.device = .memory len → len.toNat < o + n.bytes →
        Raises (exec i s) (.deviceRange ea k n s.pc) ∧ ∀ t, exec i s = .next t → t.mem = s.mem)

/-- R207 to R209 in a memory device: the bytes stored, least significant first, every other byte and everything else
unchanged. -/
def Obligations.StoreResultsInMemory : Prop :=
  ∀ (rs rt : Reg) (imm : BitVec 16) (s : State), s.Advances → s.mem.wf →
    let ea : Word := s.x rs + imm.signExtend 32
    let stores (i : Instr) (n : Nat) : Prop :=
      s.inMemory ea n → ∃ m : Memory, exec i s = .next ((s.setMem m).setFlow s.nextPc none) ∧
        ∀ q, m.read q =
          if ea.toNat ≤ q ∧ q < ea.toNat + n then (s.x rt).extractLsb' (8 * (q - ea.toNat)) 8
          else s.mem.read q
    stores (.sb rs rt imm) 1 ∧ stores (.sh rs rt imm) 2 ∧ stores (.sw rs rt imm) 4

/-- 20_memory R71 with R207 to R209: a store of any width at the console's offset 0 appends its low byte, at offset 1 it
flushes the buffer. Nothing else changes. -/
def Obligations.StoresToConsole : Prop :=
  ∀ (rs rt : Reg) (imm : BitVec 16) (s : State) (before after : List Port) (base : Word) (buf out : List Byte),
    s.Advances → s.bus = before ++ ⟨base, .console buf out⟩ :: after →
    let ea : Word := s.x rs + imm.signExtend 32
    (∀ p ∈ before, p.contains ea = false) →
    let done (d : Device) : Answer := .next ((s.setBus (before ++ ⟨base, d⟩ :: after)).setFlow s.nextPc none)
    ∀ i ∈ [Instr.sb rs rt imm, .sh rs rt imm, .sw rs rt imm],
      (ea.toNat = base.toNat → exec i s = done (.console (buf ++ [(s.x rt).extractLsb' 0 8]) out)) ∧
      (ea.toNat = base.toNat + 1 → exec i s = done (.console [] (out ++ buf)))

/-- 20_memory R70 with R207 to R209: a store at the halt device sets its flag when the value cut to the access width is not
zero, and changes nothing when it is. -/
def Obligations.StoresToHalt : Prop :=
  ∀ (rs rt : Reg) (imm : BitVec 16) (s : State) (before after : List Port) (base : Word) (flag : Bool),
    s.Advances → s.bus = before ++ ⟨base, .halt flag⟩ :: after →
    s.x rs + imm.signExtend 32 = base → (∀ p ∈ before, p.contains base = false) →
    let stores (i : Instr) (bits : Nat) : Prop :=
      exec i s =
        if (s.x rt).toNat % 2 ^ bits = 0 then .next (s.setFlow s.nextPc none)
        else .next ((s.setBus (before ++ ⟨base, .halt true⟩ :: after)).setFlow s.nextPc none)
    stores (.sb rs rt imm) 8 ∧ stores (.sh rs rt imm) 16 ∧ stores (.sw rs rt imm) 32

/-- R211, R212 with R210: LWL fills lanes `3-k` to 3 from `ea-k` to `ea`, LWR lanes 0 to `3-k` from `ea` to `ea+(3-k)`; the
other lanes keep the old `x[rt]`. First in a memory device, then whatever devices the bytes lie in. -/
def Obligations.UnalignedLoadResults : Prop :=
  ∀ (rs rt : Reg) (imm : BitVec 16) (s : State), s.Advances →
    let ea : Word := s.x rs + imm.signExtend 32
    let k : Nat := ea.toNat % 4
    let done (v : Word) : Answer := .next ((s.setX rt v).setFlow s.nextPc none)
    let lanes (v : Word) (new : Nat → Bool) (at' : Nat → Nat) : Prop :=
      ∀ i < 4, v.extractLsb' (8 * i) 8 =
        if new i then s.mem.read (at' i) else (s.x rt).extractLsb' (8 * i) 8
    ((∀ j ≤ k, s.inMemory (ea - BitVec.ofNat 32 j) 1) →
      ∃ v, exec (.lwl rs rt imm) s = done v ∧
        lanes v (fun i => 3 ≤ i + k) (fun i => ea.toNat - (3 - i))) ∧
    ((∀ j ≤ 3 - k, s.inMemory (ea + BitVec.ofNat 32 j) 1) →
      ∃ v, exec (.lwr rs rt imm) s = done v ∧
        lanes v (fun i => i + k ≤ 3) (fun i => ea.toNat + i)) ∧
    (∀ byte : Nat → Word, (∀ j ≤ k, busRead .read (ea - BitVec.ofNat 32 j) .byte s = .ok (byte j)) →
      ∃ v, exec (.lwl rs rt imm) s = done v ∧
        ∀ i < 4, v.extractLsb' (8 * i) 8 =
          if 3 ≤ i + k then (byte (3 - i)).extractLsb' 0 8 else (s.x rt).extractLsb' (8 * i) 8) ∧
    (∀ byte : Nat → Word, (∀ j ≤ 3 - k, busRead .read (ea + BitVec.ofNat 32 j) .byte s = .ok (byte j)) →
      ∃ v, exec (.lwr rs rt imm) s = done v ∧
        ∀ i < 4, v.extractLsb' (8 * i) 8 =
          if i + k ≤ 3 then (byte i).extractLsb' 0 8 else (s.x rt).extractLsb' (8 * i) 8)

/-- R213, R214 with R210: SWL stores lanes `3-k` to 3 at `ea-k` to `ea`, SWR lanes 0 to `3-k` at `ea` to `ea+(3-k)`; every
other byte and everything else is unchanged. First in a memory device, then whatever devices the bytes lie in: the state
after the last byte's write, each write as the bus does it. -/
def Obligations.UnalignedStoreResults : Prop :=
  ∀ (rs rt : Reg) (imm : BitVec 16) (s : State), s.Advances → s.mem.wf →
    let ea : Word := s.x rs + imm.signExtend 32
    let k : Nat := ea.toNat % 4
    ((∀ j ≤ k, s.inMemory (ea - BitVec.ofNat 32 j) 1) →
      ∃ m : Memory, exec (.swl rs rt imm) s = .next ((s.setMem m).setFlow s.nextPc none) ∧
        ∀ q, m.read q =
          if ea.toNat ≤ q + k ∧ q ≤ ea.toNat then (s.x rt).extractLsb' (8 * (3 - (ea.toNat - q))) 8
          else s.mem.read q) ∧
    ((∀ j ≤ 3 - k, s.inMemory (ea + BitVec.ofNat 32 j) 1) →
      ∃ m : Memory, exec (.swr rs rt imm) s = .next ((s.setMem m).setFlow s.nextPc none) ∧
        ∀ q, m.read q =
          if ea.toNat ≤ q ∧ q + k ≤ ea.toNat + 3 then (s.x rt).extractLsb' (8 * (q - ea.toNat)) 8
          else s.mem.read q) ∧
    (∀ at' : Nat → State, at' 0 = s →
      (∀ j ≤ k, busWrite (ea - BitVec.ofNat 32 j) .byte (((s.x rt).extractLsb' (8 * (3 - j)) 8).setWidth 32) (at' j) =
        .ok (at' (j + 1))) →
      exec (.swl rs rt imm) s = .next ((at' (k + 1)).setFlow s.nextPc none)) ∧
    (∀ at' : Nat → State, at' 0 = s →
      (∀ j ≤ 3 - k, busWrite (ea + BitVec.ofNat 32 j) .byte (((s.x rt).extractLsb' (8 * j) 8).setWidth 32) (at' j) =
        .ok (at' (j + 1))) →
      exec (.swr rs rt imm) s = .next ((at' (4 - k)).setFlow s.nextPc none))

/-- R211 to R214, R280: an unaligned load or store raises the InvalidAddress of the first byte of its walk that no binding
covers. -/
def Obligations.UnalignedAccessFaults : Prop :=
  ∀ (rs rt : Reg) (imm : BitVec 16) (s : State) (j : Nat),
    let ea : Word := s.x rs + imm.signExtend 32
    let k : Nat := ea.toNat % 4
    let down (n : Nat) : Word := ea - BitVec.ofNat 32 n
    let up (n : Nat) : Word := ea + BitVec.ofNat 32 n
    (j ≤ k → (∀ i < j, route s.bus (down i) ≠ none) → route s.bus (down j) = none →
      Raises (exec (.lwl rs rt imm) s) (.invalidAddress (down j) .read .byte s.pc) ∧
      Raises (exec (.swl rs rt imm) s) (.invalidAddress (down j) .write .byte s.pc)) ∧
    (j ≤ 3 - k → (∀ i < j, route s.bus (up i) ≠ none) → route s.bus (up j) = none →
      Raises (exec (.lwr rs rt imm) s) (.invalidAddress (up j) .read .byte s.pc) ∧
      Raises (exec (.swr rs rt imm) s) (.invalidAddress (up j) .write .byte s.pc))

/-- R215: `swr rt, 0(b)` then `swl rt, 3(b)` leaves memory identical to a word store at any address. -/
def Obligations.UnalignedStorePairIsWordStore : Prop :=
  ∀ (b rt : Reg) (s t u : State), s.Inv → s.inMemory (s.x b) 4 → s.Running →
    exec (.swr b rt 0#16) s = .next t → t.Running →
    exec (.swl b rt 3#16) t = .next u → u.Running →
    u.mem = s.mem.store (s.x b).toNat .word (s.x rt) ∧
    ∀ q, ¬((s.x b).toNat ≤ q ∧ q ≤ (s.x b).toNat + 3) → u.mem.read q = s.mem.read q

/-- R212's corner case: `lwr rt, 0(b)` then `lwl rt, 3(b)` loads the little-endian word at any address. -/
def Obligations.UnalignedLoadPairIsWordLoad : Prop :=
  ∀ (b rt : Reg) (s t u : State), s.Inv → s.inMemory (s.x b) 4 → rt ≠ b → rt ≠ 0#5 → s.Running →
    exec (.lwr b rt 0#16) s = .next t → t.Running →
    exec (.lwl b rt 3#16) t = .next u → u.Running →
    let byte (k : Nat) : Byte := s.mem.read ((s.x b).toNat + k)
    u.x rt = byte 3 ++ byte 2 ++ byte 1 ++ byte 0

/-! ## Branches and jumps (44_control) -/

/-- R240 to R245 with R235 and R230: the latch gets the target, or `A + 8` when the branch is not taken; nothing else changes. -/
def Obligations.ConditionalBranchResults : Prop :=
  ∀ (rs rt : Reg) (imm : BitVec 16) (s : State), s.pending = none → s.pc ≠ 0xFFFFFFFC#32 →
    let a : Int := (s.x rs).toInt
    let target : Word := s.pc + 4#32 + BitVec.ofInt 32 (4 * imm.toInt)
    let latches (i : Instr) (taken : Prop) : Prop :=
      (taken → exec i s = .next (s.setFlow (s.pc + 4#32) (some target))) ∧
      (¬taken → exec i s = .next (s.setFlow (s.pc + 4#32) (some (s.pc + 8#32))))
    latches (.beq rs rt imm) (s.x rs = s.x rt) ∧ latches (.bne rs rt imm) (s.x rs ≠ s.x rt) ∧
    latches (.blez rs rt imm) (a ≤ 0) ∧ latches (.bgtz rs rt imm) (0 < a) ∧
    latches (.bltz rs imm) (a < 0) ∧ latches (.bgez rs imm) (0 ≤ a)

/-- R246, R247 with R233: the link is `A + 8` in `x[31]`, taken or not, from the old `x[rs]`. -/
def Obligations.LinkBranchResults : Prop :=
  ∀ (rs : Reg) (imm : BitVec 16) (s : State), s.pending = none → s.pc ≠ 0xFFFFFFFC#32 → rs ≠ 31#5 →
    let a : Int := (s.x rs).toInt
    let target : Word := s.pc + 4#32 + BitVec.ofInt 32 (4 * imm.toInt)
    let latches (i : Instr) (taken : Prop) : Prop :=
      (taken → exec i s =
        .next ((s.setX 31#5 (s.pc + 8#32)).setFlow (s.pc + 4#32) (some target))) ∧
      (¬taken → exec i s =
        .next ((s.setX 31#5 (s.pc + 8#32)).setFlow (s.pc + 4#32) (some (s.pc + 8#32))))
    latches (.bltzal rs imm) (a < 0) ∧ latches (.bgezal rs imm) (0 ≤ a)

/-- R248 to R251 with R236 and R233: the top 4 bits of a J or JAL target are those of the jump's own address; JALR reads
`x[rs]` and discards its link when `rd = 0`. -/
def Obligations.JumpResults : Prop :=
  ∀ (rs rt rd : Reg) (sh : BitVec 5) (target : BitVec 26) (s : State),
    s.pending = none → s.pc ≠ 0xFFFFFFFC#32 →
    let jump : Word := BitVec.ofNat 32 (s.pc.toNat / 2 ^ 28 * 2 ^ 28 + target.toNat * 4)
    exec (.j target) s = .next (s.setFlow (s.pc + 4#32) (some jump)) ∧
    exec (.jal target) s = .next ((s.setX 31#5 (s.pc + 8#32)).setFlow (s.pc + 4#32) (some jump)) ∧
    exec (.jr rs rt rd sh) s = .next (s.setFlow (s.pc + 4#32) (some (s.x rs))) ∧
    (¬(rd = rs ∧ rd ≠ 0#5) →
      exec (.jalr rs rt rd sh) s =
        .next ((s.setX rd (s.pc + 8#32)).setFlow (s.pc + 4#32) (some (s.x rs))))

/-- R232, 60_exceptions R278: a control transfer in a delay slot raises BranchInDelaySlot before it changes any state. -/
def Obligations.ControlTransferInDelaySlotFaults : Prop :=
  ∀ (i : Instr) (s : State), i.isControlTransfer = true → s.pending ≠ none →
    exec i s = .next (s.setStatus (.faulted (.branchInDelaySlot (encode i) s.pc)))

/-- R234, 60_exceptions R277: the three link-register conflicts raise UnpredictableOperands before any state changes. -/
def Obligations.LinkConflictsFault : Prop :=
  ∀ (rs rt rd : Reg) (sh : BitVec 5) (imm : BitVec 16) (s : State), s.pending = none →
    let faults (i : Instr) : Prop :=
      exec i s = .next (s.setStatus (.faulted (.unpredictableOperands (encode i) s.pc)))
    (rd = rs → rd ≠ 0#5 → faults (.jalr rs rt rd sh)) ∧
    faults (.bltzal 31#5 imm) ∧ faults (.bgezal 31#5 imm)

/-- R230: after a step that does not fault, a latch is pending if and only if the instruction was a control transfer. -/
def Obligations.ControlTransfersAloneLatch : Prop :=
  ∀ (i : Instr) (s t : State), s.Running → exec i s = .next t → t.Running →
    (t.pending ≠ none ↔ i.isControlTransfer = true)

/-- R231: whatever instruction stands in the delay slot, if its step does not fault then control reaches the target right
after it and no latch is left. -/
def Obligations.DelaySlotReachesTarget : Prop :=
  ∀ (s t : State) (target : Word), s.pending = some target → step s = .next t → t.Running →
    t.pc = target ∧ t.pending = none

/-- 10_state R25, R30: outside a delay slot a step that does not fault goes on at the next word. -/
def Obligations.SequentialAdvance : Prop :=
  ∀ (s t : State), s.pending = none → step s = .next t → t.Running →
    t.pc = s.pc + 4#32 ∧ s.pc ≠ 0xFFFFFFFC#32

/-- 60_exceptions R276, 44_control R237: from an aligned `pc` and latch, only JR and JALR can leave a misaligned one. -/
def Obligations.OnlyJumpRegisterMisaligns : Prop :=
  ∀ (i : Instr) (s t : State),
    let aligned (a : Word) : Prop := a.toNat % 4 = 0
    (∀ rs rt rd sh, i ≠ .jr rs rt rd sh ∧ i ≠ .jalr rs rt rd sh) →
    aligned s.pc → (∀ a, s.pending = some a → aligned a) →
    s.Running → exec i s = .next t → t.Running →
    aligned t.pc ∧ ∀ a, t.pending = some a → aligned a

/-! ## Illegal encodings and faults (45_system, 30_encoding, 60_exceptions) -/

/-- 45_system R260 to R262: the 14 illegal rows raise IllegalInstruction with the raw word, in every state, and change
nothing else. -/
def Obligations.IllegalRowsRaise : Prop :=
  (∀ (i : Instr) (s : State), i.admitted = false →
    exec i s = .next (s.setStatus (.faulted (.illegalInstruction (encode i) s.pc)))) ∧
  ∀ (code : BitVec 20) (rest : BitVec 26),
    let illegal (i : Instr) (word : Word) : Prop := i.admitted = false ∧ encode i = word
    illegal (.syscall code) (0x00#6 ++ code ++ 0x0C#6) ∧ illegal (.brk code) (0x00#6 ++ code ++ 0x0D#6) ∧
    illegal (.cop0 rest) (0x10#6 ++ rest) ∧ illegal (.cop1 rest) (0x11#6 ++ rest) ∧
    illegal (.cop2 rest) (0x12#6 ++ rest) ∧ illegal (.cop3 rest) (0x13#6 ++ rest) ∧
    illegal (.lwc0 rest) (0x30#6 ++ rest) ∧ illegal (.lwc1 rest) (0x31#6 ++ rest) ∧
    illegal (.lwc2 rest) (0x32#6 ++ rest) ∧ illegal (.lwc3 rest) (0x33#6 ++ rest) ∧
    illegal (.swc0 rest) (0x38#6 ++ rest) ∧ illegal (.swc1 rest) (0x39#6 ++ rest) ∧
    illegal (.swc2 rest) (0x3A#6 ++ rest) ∧ illegal (.swc3 rest) (0x3B#6 ++ rest)

/-- 30_encoding R106 to R108, R111, R112: the words the decoder accepts are exactly those of the three maps' named cells, and
the admitted ones exactly those of the 56 admitted cells. -/
def Obligations.DecoderAcceptsExactlyTheMaps : Prop :=
  ∀ w : Word,
    let op : Nat := w.toNat / 2 ^ 26
    let funct : Nat := w.toNat % 2 ^ 6
    let rt : Nat := w.toNat / 2 ^ 16 % 2 ^ 5
    let admittedCell : Prop :=
      (op = 0 ∧ funct ∈ [0x00, 0x02, 0x03, 0x04, 0x06, 0x07, 0x08, 0x09, 0x10, 0x11, 0x12, 0x13, 0x18, 0x19,
        0x1A, 0x1B, 0x20, 0x21, 0x22, 0x23, 0x24, 0x25, 0x26, 0x27, 0x2A, 0x2B]) ∨
      (op = 1 ∧ rt ∈ [0x00, 0x01, 0x10, 0x11]) ∨
      op ∈ [0x02, 0x03, 0x04, 0x05, 0x06, 0x07, 0x08, 0x09, 0x0A, 0x0B, 0x0C, 0x0D, 0x0E, 0x0F, 0x20, 0x21,
        0x22, 0x23, 0x24, 0x25, 0x26, 0x28, 0x29, 0x2A, 0x2B, 0x2E]
    let illegalRow : Prop :=
      (op = 0 ∧ funct ∈ [0x0C, 0x0D]) ∨
      op ∈ [0x10, 0x11, 0x12, 0x13, 0x30, 0x31, 0x32, 0x33, 0x38, 0x39, 0x3A, 0x3B]
    ((∃ i, decodeWord w = .ok i ∧ i.admitted = true) ↔ admittedCell) ∧
    ((∃ i, decodeWord w = .ok i) ↔ admittedCell ∨ illegalRow)

/-- 10_state R30, 30_encoding R108, 60_exceptions R276, R280: the faults of fetch and dispatch, in their order. -/
def Obligations.FetchAndDispatchFaults : Prop :=
  ∀ (s : State), s.Running →
    (s.pc.toNat % 4 ≠ 0 → step s = .next (s.setStatus (.faulted (.misalignedFetch s.pc)))) ∧
    (s.pc.toNat % 4 = 0 → route s.bus s.pc = none →
      step s = .next (s.setStatus (.faulted (.invalidAddress s.pc .fetch .word s.pc)))) ∧
    (∀ p o len, s.pc.toNat % 4 = 0 → route s.bus s.pc = some (p, o) → p.device = .memory len →
      len.toNat < o + 4 → step s = .next (s.setStatus (.faulted (.deviceRange s.pc .fetch .word s.pc)))) ∧
    (∀ w e, fetch s = .ok w → decodeWord w = .error e →
      step s = .next (s.setStatus (.faulted (.illegalInstruction w s.pc))))

/-- 10_state R31, 60_exceptions R272: a running machine always takes its step, and a faulted one takes none. That the step
of a faulted machine is answered as the outcome fault is the model's reading (log 1, DEDUCED). -/
def Obligations.StepAnswersByStatus : Prop :=
  ∀ s : State, (s.Running → ∃ t, step s = .next t) ∧ (∀ f, s.status = .faulted f → step s = .fault f)

/-- 60_exceptions R272: after a step that faults, `pc` still holds the address of the faulting instruction, and the info
records it. -/
def Obligations.FaultKeepsProgramCounter : Prop :=
  ∀ (s t : State) (f : Fault), step s = .next t → t.status = .faulted f → t.pc = s.pc ∧ f.pc = s.pc

/-- 60_exceptions R273: a fault of fetch or dispatch (codes 1, 7, 8, 9, and 2 and 3 of a fetch) changes nothing but the
status. -/
def Obligations.DispatchFaultsChangeOnlyStatus : Prop :=
  ∀ (s t : State) (f : Fault), step s = .next t → t.status = .faulted f →
    (f.code ∈ [1, 7, 8, 9] ∨ (∃ a n, f = .invalidAddress a .fetch n s.pc) ∨
      (∃ a n, f = .deviceRange a .fetch n s.pc)) →
    t = s.setStatus (.faulted f)

/-- 60_exceptions R279: PcOverflow is raised exactly at 0xFFFFFFFC with no latch pending, by an instruction that raises no
earlier fault (the no-op among them); a latched target never raises it. -/
def Obligations.PcOverflowExactlyAtTop : Prop :=
  ∀ (i : Instr) (s t : State), s.Running → exec i s = .next t →
    (s.pending = none → s.pc = 0xFFFFFFFC#32 → ¬t.Running) ∧
    (t.status = .faulted (.pcOverflow s.pc) → s.pending = none ∧ s.pc = 0xFFFFFFFC#32) ∧
    (s.pending = none → s.pc = 0xFFFFFFFC#32 →
      Raises (exec (.sll 0#5 0#5 0#5 0#5) s) (.pcOverflow 0xFFFFFFFC#32))

/-! ## Encoding -/

/-- 30_encoding R100 to R112: decoding an encoded instruction gives it back, for every instruction and every operand. -/
def Obligations.DecodeOfEncode : Prop := ∀ i : Instr, decodeWord (encode i) = .ok i

/-- The other direction: no bit of a decoded word is lost. -/
def Obligations.EncodeOfDecode : Prop := ∀ (w : Word) (i : Instr), decodeWord w = .ok i → encode i = w

/-- 95_test_vectors: a few words written out bit by bit, one of each family, least significant byte first. -/
def Obligations.KnownWordsDecode : Prop :=
  decodeBytes [0b11111111#8, 0b11111111#8, 0b00100010#8, 0b00100000#8] = .ok (.addi 1#5 2#5 0xFFFF#16, []) ∧
  decodeBytes [0b00100000#8, 0b00011000#8, 0b00100010#8, 0b00000000#8] = .ok (.add 1#5 2#5 3#5 0#5, []) ∧
  decodeBytes [0b00011001#8, 0b00000000#8, 0b00100010#8, 0b00000000#8] = .ok (.multu 1#5 2#5 0#5 0#5, []) ∧
  decodeBytes [0b00000001#8, 0b00000000#8, 0b00100011#8, 0b10011000#8] = .ok (.lwr 1#5 3#5 1#16, []) ∧
  decodeBytes [0b00000100#8, 0b00000000#8, 0b00110001#8, 0b00000100#8] = .ok (.bgezal 1#5 4#16, []) ∧
  decodeBytes [0b00000000#8, 0b00000000#8, 0b00000000#8, 0b11000100#8] = .ok (.lwc1 0#26, [])

/-- 30_encoding R109: a field an instruction ignores changes nothing. -/
def Obligations.IgnoredFieldsChangeNothing : Prop :=
  ∀ (rs rt rd rs' rt' rd' : Reg) (sh sh' : BitVec 5) (imm : BitVec 16) (s : State),
    exec (.lui rs rt imm) s = exec (.lui rs' rt imm) s ∧
    exec (.add rs rt rd sh) s = exec (.add rs rt rd sh') s ∧
    exec (.sllv rs rt rd sh) s = exec (.sllv rs rt rd sh') s ∧
    exec (.sll rs rt rd sh) s = exec (.sll rs' rt rd sh) s ∧
    exec (.mult rs rt rd sh) s = exec (.mult rs rt rd' sh') s ∧
    exec (.div rs rt rd sh) s = exec (.div rs rt rd' sh') s ∧
    exec (.mfhi rs rt rd sh) s = exec (.mfhi rs' rt' rd sh') s ∧
    exec (.mtlo rs rt rd sh) s = exec (.mtlo rs rt' rd' sh') s ∧
    (s.pending = none →
      exec (.jr rs rt rd sh) s = exec (.jr rs rt' rd' sh') s ∧
      exec (.blez rs rt imm) s = exec (.blez rs rt' imm) s ∧
      exec (.bgtz rs rt imm) s = exec (.bgtz rs rt' imm) s)

/-- 10_state R30, 20_memory R51: when the four bytes at an aligned `pc` in a memory device decode to an instruction, the
step of a running machine is that instruction's meaning, which itself applies the latch or advances `pc`. -/
def Obligations.StepRunsDecodedInstruction : Prop :=
  ∀ (s : State) (i : Instr) (rest : List Byte), s.Running → s.pc.toNat % 4 = 0 → s.inMemory s.pc 4 →
    let byte (k : Nat) : Byte := s.mem.read (s.pc.toNat + k)
    decodeBytes ([byte 0, byte 1, byte 2, byte 3] ++ rest) = .ok (i, rest) → step s = exec i s

/-! ## Memory, the bus and its devices (20_memory) -/

/-- R60, R61: on a bus that construction accepts, every address in a binding's range routes to that binding with its offset
from the base, and an address outside all ranges routes nowhere. -/
def Obligations.RoutingIsCorrect : Prop :=
  ∀ (bus : List Port) (a : Word), busWf bus →
    (∀ p ∈ bus, p.base.toNat ≤ a.toNat → a.toNat < p.base.toNat + p.device.length →
      route bus a = some (p, a.toNat - p.base.toNat)) ∧
    ((∀ p ∈ bus, ¬(p.base.toNat ≤ a.toNat ∧ a.toNat < p.base.toNat + p.device.length)) ↔ route bus a = none)

/-- R68: a write followed by a read at the same place and width returns the value; R79: a narrower read inside a written
word returns its lanes. -/
def Obligations.MemoryRoundTripAndMixedWidth : Prop :=
  ∀ (m : Memory) (a : Nat) (v : Word), m.wf →
    (m.store a .byte v).load a .byte = (v.extractLsb' 0 8).setWidth 32 ∧
    (m.store a .half v).load a .half = (v.extractLsb' 0 16).setWidth 32 ∧
    (m.store a .word v).load a .word = v ∧
    (∀ k < 4, (m.store a .word v).load (a + k) .byte = (v.extractLsb' (8 * k) 8).setWidth 32) ∧
    (∀ k < 3, (m.store a .word v).load (a + k) .half = (v.extractLsb' (8 * k) 16).setWidth 32)

/-- Equal reads mean equal memories: the canonical form, the model's choice (logs 5 and 9, DESIGN CHOICE), has one list per
contents. -/
def Obligations.CanonicalMemoryIsExtensional : Prop :=
  ∀ m n : Memory, m.wf → n.wf → (∀ a, m.read a = n.read a) → m = n

/-- R59, 00_scope R7: no step changes a binding's mapping, the number of bindings or a parameter. -/
def Obligations.ConfigurationIsFixed : Prop :=
  ∀ s t : State, step s = .next t →
    t.bus.map Port.mapping = s.bus.map Port.mapping ∧ t.params = s.params

/-- R70: no step clears a halt flag. -/
def Obligations.HaltFlagStaysSet : Prop :=
  ∀ (s t : State) (n : Nat) (base : Word), step s = .next t → t.Running →
    s.bus[n]? = some ⟨base, .halt true⟩ → t.bus[n]? = some ⟨base, .halt true⟩

/-- R71: no step takes back a byte of `stdout`, and none loses a byte of the buffer but by appending it to `stdout`. -/
def Obligations.ConsoleOutputOnlyGrows : Prop :=
  ∀ (s t : State) (n : Nat) (base : Word) (buf out : List Byte), step s = .next t → t.Running →
    s.bus[n]? = some ⟨base, .console buf out⟩ →
    ∃ buf' out', t.bus[n]? = some ⟨base, .console buf' out'⟩ ∧ out <+: out' ∧ out ++ buf <+: out' ++ buf'

/-- R83: a word stored in a memory device is what a later fetch at its address reads. -/
def Obligations.StoreIsSeenByFetch : Prop :=
  ∀ (rs rt : Reg) (imm : BitVec 16) (s t : State) (latch : Option Word), s.Inv →
    let ea : Word := s.x rs + imm.signExtend 32
    ea.toNat % 4 = 0 → s.inMemory ea 4 → s.Running → exec (.sw rs rt imm) s = .next t → t.Running →
    fetch (t.setFlow ea latch) = .ok (s.x rt)

/-! ## Invariant, construction and the run loop -/

/-- Every step keeps the invariant: memory canonical and inside the memory devices, the bus as construction accepts it, slot 0
of the register file untouched. The canonical form is the model's representation (logs 5 and 9, DESIGN CHOICE). -/
def Obligations.StepKeepsInvariant : Prop := ∀ s t : State, s.Inv → step s = .next t → t.Inv

/-- The invariant holds at reset. The configuration, the register values and the empty memory of State.reset are the model's
choice (logs 3, 4 and 5, DESIGN CHOICE), and so is the canonical form (log 9, DESIGN CHOICE). -/
def Obligations.ResetHasInvariant : Prop := State.reset.Inv

/-- The invariant holds after construction from any launch. It rests on the model's choices: the canonical form is log 9's
(DESIGN CHOICE), with the unlisted byte of log 5 (DESIGN CHOICE), and listed bytes lie in memory devices because a MEM_INIT
byte that no device covers is dropped (log 15, DESIGN CHOICE). The order of construction is 70_reset R302. -/
def Obligations.ConstructionHasInvariant : Prop :=
  ∀ (l : Launch) (s : State), construct l = .ok s → s.Inv

/-- 20_memory R55 to R57: construction succeeds exactly when every binding is non-empty and ends by 2^32 and no two share an
address, in whatever order they are given; overlap among valid bindings is ConfigOverlap, an invalid binding among
disjoint ones is ConfigInvalid. -/
def Obligations.ConstructionAcceptsExactlyDisjoint : Prop :=
  ∀ l : Launch,
    let first (b : Binding) : Nat := b.base.toNat
    let last (b : Binding) : Nat := b.base.toNat + (freshDevice b.kind).length
    let valid : Prop := ∀ b ∈ l.bindings, first b < last b ∧ last b ≤ 2 ^ 32
    let disjoint : Prop := l.bindings.Pairwise (fun b c => last b ≤ first c ∨ last c ≤ first b)
    ((∃ s, construct l = .ok s) ↔ valid ∧ disjoint) ∧
    (valid → ¬disjoint → construct l = .error .configOverlap) ∧
    (¬valid → disjoint → construct l = .error .configInvalid)

/-- 10_state R34, 70_reset R300, R301: what construction leaves, for a launch that names no register and no byte twice.
The output over several consoles, and any flag of several halt devices, are the model's choice (log 12, DESIGN CHOICE). -/
def Obligations.ConstructedStateIsResetState : Prop :=
  ∀ (l : Launch) (s : State), construct l = .ok s →
    (l.loaderRegs.map Prod.fst).Nodup → (l.memInit.map Prod.fst).Nodup →
    s.pc = l.entry ∧ s.pending = none ∧ s.Running ∧ s.hi = l.hiInit ∧ s.lo = l.loInit ∧ s.params = l.params ∧
    s.x 0#5 = 0#32 ∧
    (∀ r v, r ≠ 0#5 → (r, v) ∈ l.loaderRegs → s.x r = v) ∧
    (∀ r : Reg, r ≠ 0#5 → r ∉ l.loaderRegs.map Prod.fst → s.x r = l.regInit[r.toNat]'(r.isLt)) ∧
    s.bus.Perm (l.bindings.map freshPort) ∧ s.bus.Pairwise (fun p q => p.base.toNat ≤ q.base.toNat) ∧
    (∀ a b, (a, b) ∈ l.memInit → s.bus.any (fun p => p.holdsByte a) = true → s.mem.read a = b) ∧
    s.haltSet = false ∧ s.observableOutput = []

/-- 70_reset R310: the run loop looks at the status first, then at the halt flag, before every step, the first included; R311: a
run that ends halted ends in a running state with a halt flag set, and one that ends faulted in a state with that fault. That
any of several halt devices halts is the model's choice (log 12, DESIGN CHOICE). -/
def Obligations.RunLoopOrderAndEnds : Prop :=
  ∀ (n : Nat) (s t : State),
    (∀ f, s.status = .faulted f → runLoop n s = .faulted f s) ∧
    (s.Running → s.haltSet = true → runLoop n s = .halted s) ∧
    (s.Running → s.haltSet = false → step s = .next t → runLoop (n + 1) s = runLoop n t) ∧
    (runLoop n s = .halted t → t.Running ∧ t.haltSet = true) ∧
    (∀ f, runLoop n s = .faulted f t → t.status = .faulted f)
end

