-- ==== Sys2Proof/Laws/Memory.lean ====
section
/-! SUPPORT. The laws of memory: a read after a write, and every memory operation keeps the canonical form. -/

namespace Sys2Proof.Machine

theorem Memory.wf_cons {k : Nat} {c : Byte} {m : Memory} :
    Memory.wf ((k, c) :: m) ↔ (∀ d ∈ m, k < d.1) ∧ c ≠ Memory.unlisted ∧ m.wf := by
  simp only [Memory.wf, List.pairwise_cons, List.forall_mem_cons]
  tauto

/-- An address below every listed one reads as unlisted. -/
theorem Memory.read_below {m : Memory} {a : Nat} (h : ∀ d ∈ m, a < d.1) : m.read a = Memory.unlisted := by
  induction m with
  | nil => rfl
  | cons d m ih =>
    obtain ⟨k, c⟩ := d
    have hk : a < k := h (k, c) (by simp)
    rw [Memory.read, if_neg (by omega)]
    exact ih fun d hd => h d (by simp [hd])

/-- A write lists no address but the written one and the old ones. -/
theorem Memory.mem_write {m : Memory} {a : Nat} {b : Byte} {d : Host.Cell} (h : d ∈ m.write a b) :
    d.1 = a ∨ d ∈ m := by
  induction m with
  | nil =>
    simp only [Memory.write] at h
    split at h <;> simp_all
  | cons e m ih =>
    obtain ⟨k, c⟩ := e
    simp only [Memory.write] at h
    split at h
    · split at h
      · exact .inr h
      · rcases List.mem_cons.1 h with rfl | h
        · exact .inl rfl
        · exact .inr h
    · split at h
      · split at h
        · exact .inr (List.mem_cons_of_mem _ h)
        · rcases List.mem_cons.1 h with rfl | h
          · exact .inl rfl
          · exact .inr (List.mem_cons_of_mem _ h)
      · rcases List.mem_cons.1 h with rfl | h
        · exact .inr (by simp)
        · exact (ih h).imp id (List.mem_cons_of_mem _)

/-- A byte write keeps the canonical form. -/
theorem Memory.write_wf {m : Memory} (a : Nat) (b : Byte) (h : m.wf) : (m.write a b).wf := by
  induction m with
  | nil =>
    rw [Memory.write]
    split
    · exact h
    · next hb => exact ⟨by simp, by simpa using hb⟩
  | cons e m ih =>
    obtain ⟨k, c⟩ := e
    obtain ⟨hk, hc, hm⟩ := Memory.wf_cons.1 h
    rw [Memory.write]
    split
    · next hak =>
      split
      · exact h
      · next hb =>
        refine Memory.wf_cons.2 ⟨fun d hd => ?_, hb, h⟩
        rcases List.mem_cons.1 hd with rfl | hd
        · exact hak
        · exact Nat.lt_trans hak (hk d hd)
    · split
      · next hak =>
        subst hak
        split
        · exact hm
        · next hb => exact Memory.wf_cons.2 ⟨hk, hb, hm⟩
      · refine Memory.wf_cons.2 ⟨fun d hd => ?_, hc, ih hm⟩
        rcases Memory.mem_write hd with e | hd
        · omega
        · exact hk d hd

/-- A write leaves every other address alone. -/
theorem Memory.read_write_ne (m : Memory) {a q : Nat} (b : Byte) (h : q ≠ a) :
    (m.write a b).read q = m.read q := by
  induction m with
  | nil =>
    rw [Memory.write]
    split
    · rfl
    · simp [Memory.read, h.symm]
  | cons e m ih =>
    obtain ⟨k, c⟩ := e
    rw [Memory.write]
    split
    · split
      · rfl
      · simp [Memory.read, h.symm]
    · split
      · next hak =>
        subst hak
        split <;> simp [Memory.read, h.symm]
      · simp only [Memory.read, ih]

/-- A read after a write to the same address gives the value written. -/
theorem Memory.read_write_self {m : Memory} (a : Nat) (b : Byte) (h : m.wf) : (m.write a b).read a = b := by
  induction m with
  | nil =>
    rw [Memory.write]
    split
    · next hb => simp [Memory.read, hb]
    · simp [Memory.read]
  | cons e m ih =>
    obtain ⟨k, c⟩ := e
    obtain ⟨hk, hc, hm⟩ := Memory.wf_cons.1 h
    rw [Memory.write]
    split
    · next hak =>
      split
      · next hb =>
        rw [hb]
        exact Memory.read_below fun d hd => by
          rcases List.mem_cons.1 hd with rfl | hd
          · exact hak
          · exact Nat.lt_trans hak (hk d hd)
      · simp [Memory.read]
    · split
      · next hak =>
        subst hak
        split
        · next hb => rw [hb]; exact Memory.read_below hk
        · simp [Memory.read]
      · next hak => rw [Memory.read, if_neg (fun e => hak e.symm)]; exact ih hm

/-- What a byte write does to every address. -/
theorem Memory.read_write {m : Memory} (a q : Nat) (b : Byte) (h : m.wf) :
    (m.write a b).read q = if q = a then b else m.read q := by
  split
  · next e => subst e; exact Memory.read_write_self q b h
  · next e => exact Memory.read_write_ne m b e

/-- A store of any width keeps the canonical form. -/
theorem Memory.store_wf {m : Memory} (a : Nat) (n : Width) (v : Word) (h : m.wf) : (m.store a n v).wf := by
  cases n <;> simp only [Memory.store] <;> (repeat apply Memory.write_wf) <;> exact h

/-- What a store does to every address: lane `q - a` of the value inside, nothing outside. -/
theorem Memory.read_store {m : Memory} (a q : Nat) (n : Width) (v : Word) (h : m.wf) :
    (m.store a n v).read q = if a ≤ q ∧ q < a + n.bytes then lane v (q - a) else m.read q := by
  cases n
  · simp only [Memory.store, Width.bytes, Memory.read_write _ _ _ h]
    grind
  · simp only [Memory.store, Width.bytes, Memory.read_write _ _ _ h,
      Memory.read_write _ _ _ (Memory.write_wf _ _ h)]
    grind
  · simp only [Memory.store, Width.bytes, Memory.read_write _ _ _ h,
      Memory.read_write _ _ _ (Memory.write_wf _ _ h),
      Memory.read_write _ _ _ (Memory.write_wf _ _ (Memory.write_wf _ _ h)),
      Memory.read_write _ _ _ (Memory.write_wf _ _ (Memory.write_wf _ _ (Memory.write_wf _ _ h)))]
    grind

/-- Byte `k` of a store reads lane `k` of its value. -/
theorem Memory.read_store_lane {m : Memory} (a : Nat) {k : Nat} {n : Width} (v : Word) (h : m.wf) (hk : k < n.bytes) :
    (m.store a n v).read (a + k) = lane v k := by
  rw [Memory.read_store _ _ _ _ h, if_pos (by omega), Nat.add_sub_cancel_left]

/-- A store leaves every address outside its bytes alone, whatever the memory. -/
theorem Memory.read_store_outside (m : Memory) {a q : Nat} (n : Width) (v : Word)
    (h : ¬(a ≤ q ∧ q < a + n.bytes)) : (m.store a n v).read q = m.read q := by
  cases n <;> simp only [Memory.store, Width.bytes] at * <;>
    (repeat rw [Memory.read_write_ne _ _ (by omega)])

/-- A store lists no address but its own bytes and the old ones. -/
theorem Memory.mem_store {m : Memory} {a : Nat} {n : Width} {v : Word} {d : Host.Cell} (h : d ∈ m.store a n v) :
    (a ≤ d.1 ∧ d.1 < a + n.bytes) ∨ d ∈ m := by
  cases n <;> simp only [Memory.store, Width.bytes] at *
  · rcases Memory.mem_write h with e | h
    · omega
    · exact .inr h
  · rcases Memory.mem_write h with e | h
    · omega
    rcases Memory.mem_write h with e | h
    · omega
    · exact .inr h
  · rcases Memory.mem_write h with e | h
    · omega
    rcases Memory.mem_write h with e | h
    · omega
    rcases Memory.mem_write h with e | h
    · omega
    rcases Memory.mem_write h with e | h
    · omega
    · exact .inr h

end Sys2Proof.Machine
end

