-- ==== Sys2Proof/Laws/State.lean ====
section
/-! SUPPORT. One lemma per field per update of State, and the laws of the register file (10_state R20 to R22). -/

namespace Sys2Proof.Machine

@[simp] theorem State.setHi_regs (s : State) (v : Word) : (s.setHi v).regs = s.regs := rfl
@[simp] theorem State.setHi_pc (s : State) (v : Word) : (s.setHi v).pc = s.pc := rfl
@[simp] theorem State.setHi_hi (s : State) (v : Word) : (s.setHi v).hi = v := rfl
@[simp] theorem State.setHi_lo (s : State) (v : Word) : (s.setHi v).lo = s.lo := rfl
@[simp] theorem State.setHi_pending (s : State) (v : Word) : (s.setHi v).pending = s.pending := rfl
@[simp] theorem State.setHi_status (s : State) (v : Word) : (s.setHi v).status = s.status := rfl
@[simp] theorem State.setHi_bus (s : State) (v : Word) : (s.setHi v).bus = s.bus := rfl
@[simp] theorem State.setHi_mem (s : State) (v : Word) : (s.setHi v).mem = s.mem := rfl
@[simp] theorem State.setHi_params (s : State) (v : Word) : (s.setHi v).params = s.params := rfl
@[simp] theorem State.setHi_x (s : State) (v : Word) (r : Reg) : (s.setHi v).x r = s.x r := rfl
@[simp] theorem State.setHi_effAddr (s : State) (v : Word) (r : Reg) (i : BitVec 16) :
    (s.setHi v).effAddr r i = s.effAddr r i := rfl

@[simp] theorem State.setLo_regs (s : State) (v : Word) : (s.setLo v).regs = s.regs := rfl
@[simp] theorem State.setLo_pc (s : State) (v : Word) : (s.setLo v).pc = s.pc := rfl
@[simp] theorem State.setLo_hi (s : State) (v : Word) : (s.setLo v).hi = s.hi := rfl
@[simp] theorem State.setLo_lo (s : State) (v : Word) : (s.setLo v).lo = v := rfl
@[simp] theorem State.setLo_pending (s : State) (v : Word) : (s.setLo v).pending = s.pending := rfl
@[simp] theorem State.setLo_status (s : State) (v : Word) : (s.setLo v).status = s.status := rfl
@[simp] theorem State.setLo_bus (s : State) (v : Word) : (s.setLo v).bus = s.bus := rfl
@[simp] theorem State.setLo_mem (s : State) (v : Word) : (s.setLo v).mem = s.mem := rfl
@[simp] theorem State.setLo_params (s : State) (v : Word) : (s.setLo v).params = s.params := rfl
@[simp] theorem State.setLo_x (s : State) (v : Word) (r : Reg) : (s.setLo v).x r = s.x r := rfl
@[simp] theorem State.setLo_effAddr (s : State) (v : Word) (r : Reg) (i : BitVec 16) :
    (s.setLo v).effAddr r i = s.effAddr r i := rfl

@[simp] theorem State.setMem_regs (s : State) (m : Memory) : (s.setMem m).regs = s.regs := rfl
@[simp] theorem State.setMem_pc (s : State) (m : Memory) : (s.setMem m).pc = s.pc := rfl
@[simp] theorem State.setMem_hi (s : State) (m : Memory) : (s.setMem m).hi = s.hi := rfl
@[simp] theorem State.setMem_lo (s : State) (m : Memory) : (s.setMem m).lo = s.lo := rfl
@[simp] theorem State.setMem_pending (s : State) (m : Memory) : (s.setMem m).pending = s.pending := rfl
@[simp] theorem State.setMem_status (s : State) (m : Memory) : (s.setMem m).status = s.status := rfl
@[simp] theorem State.setMem_bus (s : State) (m : Memory) : (s.setMem m).bus = s.bus := rfl
@[simp] theorem State.setMem_mem (s : State) (m : Memory) : (s.setMem m).mem = m := rfl
@[simp] theorem State.setMem_params (s : State) (m : Memory) : (s.setMem m).params = s.params := rfl
@[simp] theorem State.setMem_x (s : State) (m : Memory) (r : Reg) : (s.setMem m).x r = s.x r := rfl
@[simp] theorem State.setMem_effAddr (s : State) (m : Memory) (r : Reg) (i : BitVec 16) :
    (s.setMem m).effAddr r i = s.effAddr r i := rfl

@[simp] theorem State.setBus_regs (s : State) (b : List Port) : (s.setBus b).regs = s.regs := rfl
@[simp] theorem State.setBus_pc (s : State) (b : List Port) : (s.setBus b).pc = s.pc := rfl
@[simp] theorem State.setBus_hi (s : State) (b : List Port) : (s.setBus b).hi = s.hi := rfl
@[simp] theorem State.setBus_lo (s : State) (b : List Port) : (s.setBus b).lo = s.lo := rfl
@[simp] theorem State.setBus_pending (s : State) (b : List Port) : (s.setBus b).pending = s.pending := rfl
@[simp] theorem State.setBus_status (s : State) (b : List Port) : (s.setBus b).status = s.status := rfl
@[simp] theorem State.setBus_bus (s : State) (b : List Port) : (s.setBus b).bus = b := rfl
@[simp] theorem State.setBus_mem (s : State) (b : List Port) : (s.setBus b).mem = s.mem := rfl
@[simp] theorem State.setBus_params (s : State) (b : List Port) : (s.setBus b).params = s.params := rfl
@[simp] theorem State.setBus_x (s : State) (b : List Port) (r : Reg) : (s.setBus b).x r = s.x r := rfl
@[simp] theorem State.setBus_effAddr (s : State) (b : List Port) (r : Reg) (i : BitVec 16) :
    (s.setBus b).effAddr r i = s.effAddr r i := rfl

@[simp] theorem State.setStatus_regs (s : State) (st : Status) : (s.setStatus st).regs = s.regs := rfl
@[simp] theorem State.setStatus_pc (s : State) (st : Status) : (s.setStatus st).pc = s.pc := rfl
@[simp] theorem State.setStatus_hi (s : State) (st : Status) : (s.setStatus st).hi = s.hi := rfl
@[simp] theorem State.setStatus_lo (s : State) (st : Status) : (s.setStatus st).lo = s.lo := rfl
@[simp] theorem State.setStatus_pending (s : State) (st : Status) : (s.setStatus st).pending = s.pending := rfl
@[simp] theorem State.setStatus_status (s : State) (st : Status) : (s.setStatus st).status = st := rfl
@[simp] theorem State.setStatus_bus (s : State) (st : Status) : (s.setStatus st).bus = s.bus := rfl
@[simp] theorem State.setStatus_mem (s : State) (st : Status) : (s.setStatus st).mem = s.mem := rfl
@[simp] theorem State.setStatus_params (s : State) (st : Status) : (s.setStatus st).params = s.params := rfl
@[simp] theorem State.setStatus_x (s : State) (st : Status) (r : Reg) : (s.setStatus st).x r = s.x r := rfl
@[simp] theorem State.setStatus_effAddr (s : State) (st : Status) (r : Reg) (i : BitVec 16) :
    (s.setStatus st).effAddr r i = s.effAddr r i := rfl

@[simp] theorem State.setFlow_regs (s : State) (a : Word) (n : Option Word) : (s.setFlow a n).regs = s.regs := rfl
@[simp] theorem State.setFlow_pc (s : State) (a : Word) (n : Option Word) : (s.setFlow a n).pc = a := rfl
@[simp] theorem State.setFlow_hi (s : State) (a : Word) (n : Option Word) : (s.setFlow a n).hi = s.hi := rfl
@[simp] theorem State.setFlow_lo (s : State) (a : Word) (n : Option Word) : (s.setFlow a n).lo = s.lo := rfl
@[simp] theorem State.setFlow_pending (s : State) (a : Word) (n : Option Word) : (s.setFlow a n).pending = n := rfl
@[simp] theorem State.setFlow_status (s : State) (a : Word) (n : Option Word) : (s.setFlow a n).status = s.status := rfl
@[simp] theorem State.setFlow_bus (s : State) (a : Word) (n : Option Word) : (s.setFlow a n).bus = s.bus := rfl
@[simp] theorem State.setFlow_mem (s : State) (a : Word) (n : Option Word) : (s.setFlow a n).mem = s.mem := rfl
@[simp] theorem State.setFlow_params (s : State) (a : Word) (n : Option Word) : (s.setFlow a n).params = s.params := rfl
@[simp] theorem State.setFlow_x (s : State) (a : Word) (n : Option Word) (r : Reg) : (s.setFlow a n).x r = s.x r := rfl
@[simp] theorem State.setFlow_effAddr (s : State) (a : Word) (n : Option Word) (r : Reg) (i : BitVec 16) :
    (s.setFlow a n).effAddr r i = s.effAddr r i := rfl

@[simp] theorem State.setX_pc (s : State) (r : Reg) (v : Word) : (s.setX r v).pc = s.pc := by
  unfold State.setX; split <;> rfl
@[simp] theorem State.setX_hi (s : State) (r : Reg) (v : Word) : (s.setX r v).hi = s.hi := by
  unfold State.setX; split <;> rfl
@[simp] theorem State.setX_lo (s : State) (r : Reg) (v : Word) : (s.setX r v).lo = s.lo := by
  unfold State.setX; split <;> rfl
@[simp] theorem State.setX_pending (s : State) (r : Reg) (v : Word) : (s.setX r v).pending = s.pending := by
  unfold State.setX; split <;> rfl
@[simp] theorem State.setX_status (s : State) (r : Reg) (v : Word) : (s.setX r v).status = s.status := by
  unfold State.setX; split <;> rfl
@[simp] theorem State.setX_bus (s : State) (r : Reg) (v : Word) : (s.setX r v).bus = s.bus := by
  unfold State.setX; split <;> rfl
@[simp] theorem State.setX_mem (s : State) (r : Reg) (v : Word) : (s.setX r v).mem = s.mem := by
  unfold State.setX; split <;> rfl
@[simp] theorem State.setX_params (s : State) (r : Reg) (v : Word) : (s.setX r v).params = s.params := by
  unfold State.setX; split <;> rfl

/-- 10_state R21: register 0 reads 0. -/
@[simp] theorem State.x_zero (s : State) : s.x 0#5 = 0#32 := by simp [State.x]

/-- 10_state R21: a write to register 0 changes nothing. -/
@[simp] theorem State.setX_zero (s : State) (v : Word) : s.setX 0#5 v = s := by simp [State.setX]

/-- 10_state R22: a written register reads the written value. -/
theorem State.setX_x_self (s : State) {r : Reg} (v : Word) (h : r ≠ 0#5) : (s.setX r v).x r = v := by
  simp [State.setX, State.x, h]

/-- 10_state R22: a write leaves every other register alone. -/
theorem State.setX_x_ne (s : State) {r q : Reg} (v : Word) (h : q ≠ r) : (s.setX r v).x q = s.x q := by
  have hn : r.toNat ≠ q.toNat := fun e => h (BitVec.eq_of_toNat_eq e.symm)
  by_cases hr : r = 0#5
  · simp [State.setX, hr]
  · simp [State.setX, State.x, hr, hn]

/-- Slot 0 of the register file is never written. -/
@[simp] theorem State.setX_slot_zero (s : State) (r : Reg) (v : Word) : (s.setX r v).regs[0] = s.regs[0] := by
  unfold State.setX
  split
  · rfl
  · next h =>
    have : r.toNat ≠ 0 := fun e => h (BitVec.eq_of_toNat_eq (by simpa using e))
    simp [Vector.getElem_set_ne, this]

end Sys2Proof.Machine
end

