-- ==== Sys2Proof/Laws/Bus.lean ====
section
/-! SUPPORT. The laws of the bus: what routing answers, what a write through it can change, and what the overlap scan gives. -/

namespace Sys2Proof.Machine

/-- The binding `route` answers is on the bus and contains the address; the offset is from its base. -/
theorem route_some {bus : List Port} {a : Word} {p : Port} {o : Nat} (h : route bus a = some (p, o)) :
    p ∈ bus ∧ p.contains a = true ∧ o = a.toNat - p.base.toNat := by
  induction bus with
  | nil => simp [route] at h
  | cons q qs ih =>
    rw [route] at h
    split at h
    · next hc =>
      obtain ⟨rfl, rfl⟩ := by simpa using h
      exact ⟨by simp, hc, rfl⟩
    · obtain ⟨hm, hc, ho⟩ := ih h
      exact ⟨List.mem_cons_of_mem _ hm, hc, ho⟩

/-- `contains` on exact integers (20_memory R52). -/
theorem Port.contains_iff {p : Port} {a : Word} :
    p.contains a = true ↔ p.base.toNat ≤ a.toNat ∧ a.toNat < p.limit := by
  simp [Port.contains]

/-- The offset `route` answers lies inside the binding. -/
theorem route_offset_lt {bus : List Port} {a : Word} {p : Port} {o : Nat} (h : route bus a = some (p, o)) :
    p.base.toNat + o = a.toNat ∧ o < p.device.length := by
  obtain ⟨_, hc, rfl⟩ := route_some h
  have := Port.contains_iff.1 hc
  simp only [Port.limit] at this
  omega

/-- What the overlap scan accepts: every binding starts at or above the mark, and each ends by the base of every later
one. -/
theorem overlapFree_spec {hw : Nat} {bus : List Port} (h : overlapFree hw bus = true) :
    (∀ p ∈ bus, hw ≤ p.base.toNat) ∧ bus.Pairwise (fun p q => p.limit ≤ q.base.toNat) := by
  induction bus generalizing hw with
  | nil => simp
  | cons p ps ih =>
    rw [overlapFree, Bool.and_eq_true, decide_eq_true_eq] at h
    obtain ⟨h1, h2⟩ := ih h.2
    refine ⟨fun q hq => ?_, List.pairwise_cons.2 ⟨fun q hq => by have := h1 q hq; omega, h2⟩⟩
    rcases List.mem_cons.1 hq with rfl | hq
    · exact h.1
    · have := h1 q hq; omega

/-- Where no binding reaches a later one, the binding that contains an address is the one `route` answers. -/
theorem route_of_contains {bus : List Port} (h : bus.Pairwise (fun p q => p.limit ≤ q.base.toNat)) {p : Port}
    (hp : p ∈ bus) {a : Word} (hc : p.contains a = true) : route bus a = some (p, a.toNat - p.base.toNat) := by
  induction bus with
  | nil => simp at hp
  | cons q qs ih =>
    obtain ⟨h1, h2⟩ := List.pairwise_cons.1 h
    rw [route]
    rcases List.mem_cons.1 hp with rfl | hp
    · rw [if_pos hc]
    · rw [if_neg, ih h2 hp]
      intro hq
      have := Port.contains_iff.1 hc
      have := Port.contains_iff.1 hq
      have := h1 p hp
      omega

/-- On a bus that construction accepts, the later bytes of an access in a memory device are in it too, and their addresses
do not wrap. -/
theorem State.inMemory_later {s : State} {a : Word} {n m k : Nat} (hb : busWf s.bus) (h : s.inMemory a n) (hk : k + m ≤ n)
    (hm : 0 < m) : s.inMemory (a + BitVec.ofNat 32 k) m ∧ (a + BitVec.ofNat 32 k).toNat = a.toNat + k := by
  obtain ⟨p, len, hr, hd, hle⟩ := h
  obtain ⟨hp, hc, _⟩ := route_some hr
  have hc := Port.contains_iff.1 hc
  have hlim : p.limit = p.base.toNat + len.toNat := by simp [Port.limit, hd, Device.length]
  have hv : p.limit ≤ 2 ^ 32 := by
    have := List.all_eq_true.1 hb.1 p hp
    simp only [Port.valid, Bool.and_eq_true, decide_eq_true_eq] at this
    exact this.2
  have e : (a + BitVec.ofNat 32 k).toNat = a.toNat + k := by
    rw [BitVec.toNat_add, BitVec.toNat_ofNat]
    omega
  exact ⟨⟨p, len, route_of_contains (overlapFree_spec hb.2).2 hp (Port.contains_iff.2 (by omega)), hd, by omega⟩, e⟩

/-- A write to a device never changes its footprint. -/
@[simp] theorem Device.write_length (o : Nat) (n : Width) (v : Word) (d : Device) :
    (d.write o n v).length = d.length := by
  cases d
  · rfl
  · simp only [Device.write]; split <;> rfl
  · rfl

/-- A change of the routed device that keeps footprints keeps every mapping (20_memory R59). -/
theorem updateRouted_mapping (bus : List Port) (a : Word) {f : Device → Device}
    (hf : ∀ d, (f d).length = d.length) : (updateRouted bus a f).map Port.mapping = bus.map Port.mapping := by
  induction bus with
  | nil => rfl
  | cons p ps ih =>
    rw [updateRouted]
    split
    · simp [Port.mapping, hf]
    · simp [ih]

/-- The overlap scan and the validity of bindings depend on the mappings alone. -/
theorem busWf_congr {b c : List Port} (h : b.map Port.mapping = c.map Port.mapping) : busWf b → busWf c := by
  have key : ∀ {b c : List Port}, b.map Port.mapping = c.map Port.mapping →
      b.all Port.valid = c.all Port.valid ∧ ∀ hw, overlapFree hw b = overlapFree hw c := by
    intro b
    induction b with
    | nil => intro c h; cases c with
      | nil => simp
      | cons _ _ => simp at h
    | cons p ps ih =>
      intro c h
      cases c with
      | nil => simp at h
      | cons q qs =>
        simp only [List.map_cons, List.cons.injEq, Port.mapping, Prod.mk.injEq] at h
        obtain ⟨⟨hb, hl⟩, ht⟩ := h
        obtain ⟨h1, h2⟩ := ih ht
        have hlim : p.limit = q.limit := by rw [Port.limit, Port.limit, hb, hl]
        have hv : p.valid = q.valid := by rw [Port.valid, Port.valid, hl, hlim]
        exact ⟨by rw [List.all_cons, List.all_cons, hv, h1],
          fun hw => by rw [overlapFree, overlapFree, hb, hlim, h2]⟩
  intro ⟨h1, h2⟩
  obtain ⟨k1, k2⟩ := key h
  exact ⟨k1 ▸ h1, k2 0 ▸ h2⟩

/-- A successful write through the bus: bytes stored in the memory device, or the routed device changed. -/
theorem busWrite_ok {a : Word} {n : Width} {v : Word} {s s' : State} (h : busWrite a n v s = .ok s') :
    (∃ p len, route s.bus a = some (p, a.toNat - p.base.toNat) ∧ p.device = .memory len ∧
        a.toNat + n.bytes ≤ p.limit ∧ s' = s.setMem (s.mem.store a.toNat n v)) ∨
    (∃ p, route s.bus a = some (p, a.toNat - p.base.toNat) ∧ (∀ len, p.device ≠ .memory len) ∧
        s' = s.setBus (updateRouted s.bus a (Device.write (a.toNat - p.base.toNat) n v))) := by
  unfold busWrite at h
  split at h
  · cases h
  · next p o hr =>
    obtain ⟨ho, _⟩ := route_offset_lt hr
    obtain ⟨_, _, rfl⟩ := route_some hr
    split at h
    · next len hd =>
      split at h
      · next hle =>
        cases h
        refine .inl ⟨p, len, hr, hd, ?_, by rw [ho]⟩
        simp only [Port.limit, hd, Device.length]; omega
      · cases h
    · next hd => cases h; exact .inr ⟨p, hr, by simp [hd], rfl⟩
    · next hd => cases h; exact .inr ⟨p, hr, by simp [hd], rfl⟩

/-- A failed bus access reports one of the two bus faults, with the address, the kind, the width and `pc` (43_loadstore R201). -/
theorem busRead_error {k : Access} {a : Word} {n : Width} {s : State} {f : Fault} (h : busRead k a n s = .error f) :
    f = .invalidAddress a k n s.pc ∨ f = .deviceRange a k n s.pc := by
  unfold busRead at h
  split at h
  · cases h; exact .inl rfl
  · split at h
    · split at h <;> cases h; exact .inr rfl
    · cases h
    · cases h

/-- The same for a write. -/
theorem busWrite_error {a : Word} {n : Width} {v : Word} {s : State} {f : Fault} (h : busWrite a n v s = .error f) :
    f = .invalidAddress a .write n s.pc ∨ f = .deviceRange a .write n s.pc := by
  unfold busWrite at h
  split at h
  · cases h; exact .inl rfl
  · split at h
    · split at h <;> cases h; exact .inr rfl
    · cases h
    · cases h

/-- What a successful write leaves alone: everything but the bytes and the devices. -/
theorem busWrite_frame {a : Word} {n : Width} {v : Word} {s s' : State} (h : busWrite a n v s = .ok s') :
    s'.regs = s.regs ∧ s'.pc = s.pc ∧ s'.hi = s.hi ∧ s'.lo = s.lo ∧ s'.pending = s.pending ∧
      s'.status = s.status ∧ s'.params = s.params ∧ s'.bus.map Port.mapping = s.bus.map Port.mapping := by
  rcases busWrite_ok h with ⟨p, len, _, _, _, rfl⟩ | ⟨p, _, _, rfl⟩
  · simp
  · simp [updateRouted_mapping]

/-- A one-byte access to a memory device is always in range (43_loadstore R211). -/
theorem busRead_byte_inMemory {k : Access} {a : Word} {s : State} {n : Width} (h : s.inMemory a n.bytes) :
    busRead k a n s = .ok (s.mem.load a.toNat n) := by
  obtain ⟨p, len, hr, hd, hle⟩ := h
  obtain ⟨ho, _⟩ := route_offset_lt hr
  unfold busRead
  simp only [hr, hd, ho]
  rw [if_pos (by omega)]

/-- A write inside a memory device stores its bytes. -/
theorem busWrite_inMemory {a : Word} {s : State} {n : Width} {v : Word} (h : s.inMemory a n.bytes) :
    busWrite a n v s = .ok (s.setMem (s.mem.store a.toNat n v)) := by
  obtain ⟨p, len, hr, hd, hle⟩ := h
  obtain ⟨ho, _⟩ := route_offset_lt hr
  unfold busWrite
  simp only [hr, hd, ho]
  rw [if_pos (by omega)]

end Sys2Proof.Machine
end

