-- ==== Sys2Proof/Laws/Encoding.lean ====
section
/-! SUPPORT. The fields and the selecting bits of a packed word (30_encoding R100 to R102). -/

namespace Sys2Proof

@[simp] theorem fieldOp_packR (rs rt rd : Reg) (shamt : BitVec 5) (funct : BitVec 6) :
    fieldOp (packR rs rt rd shamt funct) = 0x00#6 := by
  unfold packR fieldOp
  ext i hi
  simp only [BitVec.getElem_extractLsb', BitVec.getLsbD_append]
  interval_cases i <;> simp

@[simp] theorem fieldRs_packR (rs rt rd : Reg) (shamt : BitVec 5) (funct : BitVec 6) :
    fieldRs (packR rs rt rd shamt funct) = rs := by
  unfold packR fieldRs
  ext i hi
  simp only [BitVec.getElem_extractLsb', BitVec.getLsbD_append]
  interval_cases i <;> simp

@[simp] theorem fieldRt_packR (rs rt rd : Reg) (shamt : BitVec 5) (funct : BitVec 6) :
    fieldRt (packR rs rt rd shamt funct) = rt := by
  unfold packR fieldRt
  ext i hi
  simp only [BitVec.getElem_extractLsb', BitVec.getLsbD_append]
  interval_cases i <;> simp

@[simp] theorem fieldRd_packR (rs rt rd : Reg) (shamt : BitVec 5) (funct : BitVec 6) :
    fieldRd (packR rs rt rd shamt funct) = rd := by
  unfold packR fieldRd
  ext i hi
  simp only [BitVec.getElem_extractLsb', BitVec.getLsbD_append]
  interval_cases i <;> simp

@[simp] theorem fieldShamt_packR (rs rt rd : Reg) (shamt : BitVec 5) (funct : BitVec 6) :
    fieldShamt (packR rs rt rd shamt funct) = shamt := by
  unfold packR fieldShamt
  ext i hi
  simp only [BitVec.getElem_extractLsb', BitVec.getLsbD_append]
  interval_cases i <;> simp

@[simp] theorem fieldFunct_packR (rs rt rd : Reg) (shamt : BitVec 5) (funct : BitVec 6) :
    fieldFunct (packR rs rt rd shamt funct) = funct := by
  unfold packR fieldFunct
  ext i hi
  simp only [BitVec.getElem_extractLsb', BitVec.getLsbD_append]
  interval_cases i <;> simp

@[simp] theorem fieldOp_packI (op : BitVec 6) (rs rt : Reg) (imm : BitVec 16) :
    fieldOp (packI op rs rt imm) = op := by
  unfold packI fieldOp
  ext i hi
  simp only [BitVec.getElem_extractLsb', BitVec.getLsbD_append]
  interval_cases i <;> simp

@[simp] theorem fieldRs_packI (op : BitVec 6) (rs rt : Reg) (imm : BitVec 16) :
    fieldRs (packI op rs rt imm) = rs := by
  unfold packI fieldRs
  ext i hi
  simp only [BitVec.getElem_extractLsb', BitVec.getLsbD_append]
  interval_cases i <;> simp

@[simp] theorem fieldRt_packI (op : BitVec 6) (rs rt : Reg) (imm : BitVec 16) :
    fieldRt (packI op rs rt imm) = rt := by
  unfold packI fieldRt
  ext i hi
  simp only [BitVec.getElem_extractLsb', BitVec.getLsbD_append]
  interval_cases i <;> simp

@[simp] theorem fieldImm_packI (op : BitVec 6) (rs rt : Reg) (imm : BitVec 16) :
    fieldImm (packI op rs rt imm) = imm := by
  unfold packI fieldImm
  ext i hi
  simp only [BitVec.getElem_extractLsb', BitVec.getLsbD_append]
  interval_cases i <;> simp

@[simp] theorem fieldOp_packJ (op : BitVec 6) (target : BitVec 26) :
    fieldOp (packJ op target) = op := by
  unfold packJ fieldOp
  ext i hi
  simp only [BitVec.getElem_extractLsb', BitVec.getLsbD_append]
  interval_cases i <;> simp

@[simp] theorem fieldTarget_packJ (op : BitVec 6) (target : BitVec 26) :
    fieldTarget (packJ op target) = target := by
  unfold packJ fieldTarget
  ext i hi
  simp only [BitVec.getElem_extractLsb', BitVec.getLsbD_append]
  interval_cases i <;> simp

@[simp] theorem fieldOp_packCode (code : BitVec 20) (funct : BitVec 6) :
    fieldOp (packCode code funct) = 0x00#6 := by
  unfold packCode fieldOp
  ext i hi
  simp only [BitVec.getElem_extractLsb', BitVec.getLsbD_append]
  interval_cases i <;> simp

@[simp] theorem fieldFunct_packCode (code : BitVec 20) (funct : BitVec 6) :
    fieldFunct (packCode code funct) = funct := by
  unfold packCode fieldFunct
  ext i hi
  simp only [BitVec.getElem_extractLsb', BitVec.getLsbD_append]
  interval_cases i <;> simp

@[simp] theorem fieldCode_packCode (code : BitVec 20) (funct : BitVec 6) :
    fieldCode (packCode code funct) = code := by
  unfold packCode fieldCode
  ext i hi
  simp only [BitVec.getElem_extractLsb', BitVec.getLsbD_append]
  interval_cases i <;> simp

/-- The selecting bits of a packed word. -/
theorem packR_mask (rs rt rd : Reg) (shamt : BitVec 5) (funct : BitVec 6) :
    packR rs rt rd shamt funct &&& 0xFC00003F#32 = funct.setWidth 32 := by
  unfold packR
  ext i hi
  simp only [BitVec.getElem_and, BitVec.getElem_append]
  interval_cases i <;> simp

/-- The selecting bits of a packed word. -/
theorem packI_mask (op : BitVec 6) (rs rt : Reg) (imm : BitVec 16) :
    packI op rs rt imm &&& 0xFC000000#32 = op.setWidth 32 <<< 26 := by
  unfold packI
  ext i hi
  simp only [BitVec.getElem_and, BitVec.getElem_append]
  interval_cases i <;> simp

/-- The selecting bits of a packed word. -/
theorem packI_regimm_mask (op : BitVec 6) (rs rt : Reg) (imm : BitVec 16) :
    packI op rs rt imm &&& 0xFC1F0000#32 = (op.setWidth 32 <<< 26) ||| (rt.setWidth 32 <<< 16) := by
  unfold packI
  ext i hi
  simp only [BitVec.getElem_and, BitVec.getElem_append]
  interval_cases i <;> simp

/-- The selecting bits of a packed word. -/
theorem packJ_mask (op : BitVec 6) (target : BitVec 26) :
    packJ op target &&& 0xFC000000#32 = op.setWidth 32 <<< 26 := by
  unfold packJ
  ext i hi
  simp only [BitVec.getElem_and, BitVec.getElem_append]
  interval_cases i <;> simp

/-- The selecting bits of a packed word. -/
theorem packCode_mask (code : BitVec 20) (funct : BitVec 6) :
    packCode code funct &&& 0xFC00003F#32 = funct.setWidth 32 := by
  unfold packCode
  ext i hi
  simp only [BitVec.getElem_and, BitVec.getElem_append]
  interval_cases i <;> simp

end Sys2Proof
end

