-- ==== Sys2Proof/Laws/Ops.lean ====
section
/-! SUPPORT. One lemma per shared operation that says everything it can do: the end of a step, raising, a control transfer, the
byte walks and the families' shared ends. -/

namespace Sys2Proof.Machine

@[simp] theorem raise_eq (f : Fault) (s : State) : raise f s = .next (s.setStatus (.faulted f)) := rfl

/-- The end of a step that advances (10_state R30). -/
theorem complete_advances {s : State} (next : Option Word) (h : s.Advances) :
    complete next s = .next (s.setFlow s.nextPc next) := by
  unfold complete State.nextPc
  cases e : s.pending
  · simp [h e]
  · rfl

/-- The end of a step at the top of the address space (60_exceptions R279). -/
theorem complete_overflows {s : State} (next : Option Word) (h : ¬ s.Advances) :
    complete next s = raise (.pcOverflow s.pc) s := by
  obtain ⟨hp, hpc⟩ : s.pending = none ∧ s.pc = 0xFFFFFFFC#32 := by
    simpa [State.Advances] using h
  simp [complete, hp, hpc]

/-- Everything `complete` can answer. -/
theorem complete_cases (next : Option Word) (s : State) :
    (s.Advances ∧ complete next s = .next (s.setFlow s.nextPc next)) ∨
    (¬ s.Advances ∧ complete next s = raise (.pcOverflow s.pc) s) := by
  by_cases h : s.Advances
  · exact .inl ⟨h, complete_advances next h⟩
  · exact .inr ⟨h, complete_overflows next h⟩

/-- Whether a step advances depends on `pc` and the latch alone. -/
theorem State.Advances_congr {s t : State} (h1 : t.pc = s.pc) (h2 : t.pending = s.pending) :
    t.Advances ↔ s.Advances := by
  simp [State.Advances, h1, h2]

/-- Outside a delay slot a control transfer runs its body. -/
theorem transfer_none {w : Word} {body : State → Answer} {s : State} (h : s.pending = none) :
    transfer w body s = body s := by
  simp [transfer, h]

/-- In a delay slot a control transfer raises BranchInDelaySlot (44_control R232). -/
theorem transfer_some {w : Word} {body : State → Answer} {s : State} (h : s.pending ≠ none) :
    transfer w body s = raise (.branchInDelaySlot w s.pc) s := by
  unfold transfer
  split
  · rfl
  · next e => exact absurd e h

/-- What the byte writes of SWL and SWR leave alone, whether or not one of them faults. -/
theorem storeLanes_frame {v : Word} {walk : List (Word × Nat)} {s s' : State}
    (h : storeLanes v walk s = .ok s' ∨ ∃ f, storeLanes v walk s = .error (f, s')) :
    s'.regs = s.regs ∧ s'.pc = s.pc ∧ s'.hi = s.hi ∧ s'.lo = s.lo ∧ s'.pending = s.pending ∧
      s'.status = s.status ∧ s'.params = s.params ∧ s'.bus.map Port.mapping = s.bus.map Port.mapping := by
  induction walk generalizing s with
  | nil =>
    rcases h with h | ⟨f, h⟩
    · cases h; simp
    · cases h
  | cons d walk ih =>
    obtain ⟨a, i⟩ := d
    simp only [storeLanes] at h
    split at h
    · rcases h with h | ⟨f, h⟩
      · cases h
      · cases h; simp
    · next t ht =>
      obtain ⟨h1, h2, h3, h4, h5, h6, h7, h8⟩ := busWrite_frame ht
      obtain ⟨k1, k2, k3, k4, k5, k6, k7, k8⟩ := ih h
      simp_all

/-- The fault of a byte walk that stores is a bus fault at one of its addresses, with the `pc` of the instruction. -/
theorem storeLanes_error {v : Word} {walk : List (Word × Nat)} {s s' : State} {f : Fault}
    (h : storeLanes v walk s = .error (f, s')) :
    ∃ a ∈ walk.map Prod.fst, f = .invalidAddress a .write .byte s.pc ∨ f = .deviceRange a .write .byte s.pc := by
  induction walk generalizing s with
  | nil => simp [storeLanes] at h
  | cons d walk ih =>
    obtain ⟨a, i⟩ := d
    simp only [storeLanes] at h
    split at h
    · next e he => cases h; exact ⟨a, by simp, busWrite_error he⟩
    · next t ht =>
      obtain ⟨b, hb, hf⟩ := ih h
      rw [(busWrite_frame ht).2.1] at hf
      exact ⟨b, by simp at hb ⊢; exact .inr hb, hf⟩

/-- The fault of a byte walk that loads. -/
theorem loadLanes_error {walk : List (Word × Nat)} {s : State} {v : Word} {f : Fault}
    (h : loadLanes s walk v = .error f) :
    ∃ a ∈ walk.map Prod.fst, f = .invalidAddress a .read .byte s.pc ∨ f = .deviceRange a .read .byte s.pc := by
  induction walk generalizing v with
  | nil => simp [loadLanes] at h
  | cons d walk ih =>
    obtain ⟨a, i⟩ := d
    simp only [loadLanes] at h
    split at h
    · next e he => cases h; exact ⟨a, by simp, busRead_error he⟩
    · obtain ⟨b, hb, hf⟩ := ih h
      exact ⟨b, by simp at hb ⊢; exact .inr hb, hf⟩

/-- `finish` never refuses and never answers a fault. -/
theorem finish_next (r : Except (Fault × State) State) : ∃ s', finish r = .next s' := by
  unfold finish
  split
  · rcases complete_cases none _ with ⟨_, e⟩ | ⟨_, e⟩ <;> exact ⟨_, e⟩
  · exact ⟨_, rfl⟩

/-- Every meaning's answer is a next state when its end is `complete`. -/
theorem complete_next (next : Option Word) (s : State) : ∃ s', complete next s = .next s' := by
  rcases complete_cases next s with ⟨_, e⟩ | ⟨_, e⟩ <;> exact ⟨_, e⟩

/-- The end of an arithmetic instruction that advances. -/
theorem writeResult_advances {s : State} (r : Reg) (v : Word) (h : s.Advances) :
    writeResult r v s = .next ((s.setX r v).setFlow s.nextPc none) := by
  have : (s.setX r v).nextPc = s.nextPc := by simp [State.nextPc]
  rw [writeResult, complete_advances none (by simpa [State.Advances] using h), this]

end Sys2Proof.Machine
end

