-- ==== Sys2Proof/Laws/Exec.lean ====
section
/-! SUPPORT. What any instruction can do, said once: it changes what its `Effect` allows and then either ends its step or raises a
fault. Claims about all instructions and about the step follow from `exec_cases` and `step_cases`. -/

namespace Sys2Proof.Machine

/-- Successful bus writes, one after another. -/
inductive Writes : State → State → Prop where
  | refl (s : State) : Writes s s
  | write {s t u : State} {a : Word} {n : Width} {v : Word} : busWrite a n v s = .ok t → Writes t u → Writes s u

theorem Writes.one {s t : State} {a : Word} {n : Width} {v : Word} (h : busWrite a n v s = .ok t) : Writes s t :=
  .write h (.refl t)

/-- What bus writes leave alone. -/
theorem Writes.frame {s t : State} (h : Writes s t) :
    t.regs = s.regs ∧ t.pc = s.pc ∧ t.hi = s.hi ∧ t.lo = s.lo ∧ t.pending = s.pending ∧
      t.status = s.status ∧ t.params = s.params ∧ t.bus.map Port.mapping = s.bus.map Port.mapping := by
  induction h with
  | refl => simp
  | write hw _ ih =>
    obtain ⟨h1, h2, h3, h4, h5, h6, h7, h8⟩ := busWrite_frame hw
    simp_all

/-- The byte writes of SWL and SWR, whether or not one of them faults. -/
theorem storeLanes_writes {v : Word} {walk : List (Word × Nat)} {s t : State}
    (h : storeLanes v walk s = .ok t ∨ ∃ f, storeLanes v walk s = .error (f, t)) : Writes s t := by
  induction walk generalizing s with
  | nil =>
    rcases h with h | ⟨f, h⟩
    · cases h; exact .refl _
    · cases h
  | cons d walk ih =>
    obtain ⟨a, i⟩ := d
    simp only [storeLanes] at h
    split at h
    · rcases h with h | ⟨f, h⟩
      · cases h
      · cases h; exact .refl _
    · next u hu => exact .write hu (ih h)

/-- What an instruction may have changed when its step ends or it raises: never `pc`, the latch, the status or the
parameters. -/
structure Effect (i : Instr) (s t : State) : Prop where
  pc : t.pc = s.pc
  pending : t.pending = s.pending
  status : t.status = s.status
  params : t.params = s.params
  slot : t.regs[0] = s.regs[0]
  regs : ∀ q, i.destination ≠ some q → t.x q = s.x q
  hi : i.writesHiLo = false ∨ (∃ rs rt rd sh, i = .mtlo rs rt rd sh) → t.hi = s.hi
  lo : i.writesHiLo = false ∨ (∃ rs rt rd sh, i = .mthi rs rt rd sh) → t.lo = s.lo
  mem : i.isStore = false → t.mem = s.mem ∧ t.bus = s.bus
  writes : i.isStore = true → Writes s t

/-- A fault of execution, as `exec` raises it. -/
structure ExecFault (f : Fault) (s t : State) : Prop where
  pc : f.pc = s.pc
  dispatch : f.code ∈ [1, 8, 9] → t = s
  code : f.code ≠ 7 ∧ f.code ≠ 10
  kind : ∀ a n pc, f ≠ .invalidAddress a .fetch n pc ∧ f ≠ .deviceRange a .fetch n pc

/-- The two ways a meaning ends. -/
def Ends (i : Instr) (s t : State) (ans : Answer) : Prop :=
  (∃ next, ans = complete next t ∧ (next ≠ none ↔ i.isControlTransfer = true) ∧
    (i.isControlTransfer = true → s.pending = none)) ∨
  (∃ f, ans = raise f t ∧ ExecFault f s t)

theorem Effect.same (i : Instr) (s : State) : Effect i s s :=
  ⟨rfl, rfl, rfl, rfl, rfl, fun _ _ => rfl, fun _ => rfl, fun _ => rfl, fun _ => ⟨rfl, rfl⟩, fun _ => .refl s⟩

theorem Effect.setX {i : Instr} {s : State} {r : Reg} (v : Word) (hd : i.destination = some r)
    (hs : i.isStore = false) : Effect i s (s.setX r v) where
  pc := by simp
  pending := by simp
  status := by simp
  params := by simp
  slot := by simp
  regs q hq := by
    rw [hd] at hq
    exact State.setX_x_ne s v fun e => hq (by rw [e])
  hi _ := by simp
  lo _ := by simp
  mem _ := by simp
  writes h := by simp [hs] at h

theorem Effect.writes_of {i : Instr} {s t : State} (h : Writes s t) (hs : i.isStore = true) : Effect i s t where
  pc := h.frame.2.1
  pending := h.frame.2.2.2.2.1
  status := h.frame.2.2.2.2.2.1
  params := h.frame.2.2.2.2.2.2.1
  slot := by rw [h.frame.1]
  regs q _ := by simp [State.x, h.frame.1]
  hi _ := h.frame.2.2.1
  lo _ := h.frame.2.2.2.1
  mem e := by simp [hs] at e
  writes _ := h

theorem ends_raise {i : Instr} {s : State} {f : Fault} (h : ExecFault f s s) :
    ∃ t, Effect i s t ∧ Ends i s t (raise f s) := ⟨s, .same i s, .inr ⟨f, rfl, h⟩⟩

/-- A bus access of a load or store raises an execution fault. -/
theorem ExecFault.bus {f : Fault} {s t : State} {a : Word} {k : Access} {n : Width} (hk : k ≠ .fetch)
    (h : f = .invalidAddress a k n s.pc ∨ f = .deviceRange a k n s.pc) : ExecFault f s t := by
  rcases h with rfl | rfl
  · exact ⟨rfl, by simp [Fault.code], by simp [Fault.code],
      fun _ _ _ => ⟨fun e => hk (by cases e; rfl), nofun⟩⟩
  · exact ⟨rfl, by simp [Fault.code], by simp [Fault.code],
      fun _ _ _ => ⟨nofun, fun e => hk (by cases e; rfl)⟩⟩

theorem writeResult_cases {i : Instr} {s : State} {r : Reg} (v : Word) (hd : i.destination = some r)
    (hs : i.isStore = false) (hc : i.isControlTransfer = false) :
    ∃ t, Effect i s t ∧ Ends i s t (writeResult r v s) :=
  ⟨_, .setX v hd hs, .inl ⟨none, rfl, by simp [hc], by simp [hc]⟩⟩

theorem writeTrapping_cases {i : Instr} {s : State} {r : Reg} (b : Bool) (v : Word) (hd : i.destination = some r)
    (hs : i.isStore = false) (hc : i.isControlTransfer = false) :
    ∃ t, Effect i s t ∧ Ends i s t (writeTrapping b r v s) := by
  unfold writeTrapping
  split
  · exact ends_raise ⟨rfl, by simp [Fault.code], by simp [Fault.code], by intro _ _ _; constructor <;> nofun⟩
  · exact writeResult_cases v hd hs hc

/-- `hi` and `lo` written by an instruction that may write both. -/
theorem writeHiLo_cases {i : Instr} {s : State} (h l : Word) (hw : i.writesHiLo = true) (hs : i.isStore = false)
    (hc : i.isControlTransfer = false) (h1 : ∀ rs rt rd sh, i ≠ .mtlo rs rt rd sh)
    (h2 : ∀ rs rt rd sh, i ≠ .mthi rs rt rd sh) : ∃ t, Effect i s t ∧ Ends i s t (writeHiLo h l s) := by
  refine ⟨(s.setHi h).setLo l, ⟨rfl, rfl, rfl, rfl, rfl, fun _ _ => rfl, ?_, ?_, fun _ => ⟨rfl, rfl⟩, by simp [hs]⟩,
    .inl ⟨none, rfl, by simp [hc], by simp [hc]⟩⟩
  · rintro (e | ⟨rs, rt, rd, sh, e⟩)
    · simp [hw] at e
    · exact (h1 _ _ _ _ e).elim
  · rintro (e | ⟨rs, rt, rd, sh, e⟩)
    · simp [hw] at e
    · exact (h2 _ _ _ _ e).elim

theorem loadWith_cases {i : Instr} {s : State} (ext : Word → Word) (n : Width) (rs : Reg) {rt : Reg} (imm : BitVec 16)
    (hd : i.destination = some rt) (hs : i.isStore = false) (hc : i.isControlTransfer = false) :
    ∃ t, Effect i s t ∧ Ends i s t (loadWith ext n rs rt imm s) := by
  unfold loadWith
  split
  · next f hf => exact ends_raise (.bus (by decide) (busRead_error hf))
  · exact writeResult_cases _ hd hs hc

theorem storeWith_cases {i : Instr} {s : State} (n : Width) (rs rt : Reg) (imm : BitVec 16)
    (hs : i.isStore = true) (hc : i.isControlTransfer = false) :
    ∃ t, Effect i s t ∧ Ends i s t (storeWith n rs rt imm s) := by
  unfold storeWith
  split
  · next f hf => exact ends_raise (.bus (by decide) (busWrite_error hf))
  · next t ht => exact ⟨t, .writes_of (.one ht) hs, .inl ⟨none, rfl, by simp [hc], by simp [hc]⟩⟩

theorem loadWalk_cases {i : Instr} {s : State} (walk : List (Word × Nat)) {rt : Reg}
    (hd : i.destination = some rt) (hs : i.isStore = false) (hc : i.isControlTransfer = false) :
    ∃ t, Effect i s t ∧ Ends i s t (loadWalk walk rt s) := by
  unfold loadWalk
  split
  · next f hf =>
    obtain ⟨a, _, h⟩ := loadLanes_error hf
    exact ends_raise (.bus (by decide) h)
  · exact writeResult_cases _ hd hs hc

theorem storeWalk_cases {i : Instr} {s : State} (walk : List (Word × Nat)) (rt : Reg)
    (hs : i.isStore = true) (hc : i.isControlTransfer = false) :
    ∃ t, Effect i s t ∧ Ends i s t (storeWalk walk rt s) := by
  unfold storeWalk finish
  split
  · next t ht => exact ⟨t, .writes_of (storeLanes_writes (.inl ht)) hs, .inl ⟨none, rfl, by simp [hc], by simp [hc]⟩⟩
  · next f t ht =>
    obtain ⟨a, _, h⟩ := storeLanes_error ht
    exact ⟨t, .writes_of (storeLanes_writes (.inr ⟨f, ht⟩)) hs, .inr ⟨f, rfl, .bus (by decide) h⟩⟩

/-- A control transfer: its body runs only outside a delay slot. -/
theorem transfer_cases {i : Instr} {s : State} {w : Word} {body : State → Answer}
    (h : s.pending = none → ∃ t, Effect i s t ∧ Ends i s t (body s)) :
    ∃ t, Effect i s t ∧ Ends i s t (transfer w body s) := by
  by_cases hp : s.pending = none
  · rw [transfer_none hp]; exact h hp
  · rw [transfer_some hp]
    exact ends_raise ⟨rfl, fun _ => rfl, by simp [Fault.code], by intro _ _ _; constructor <;> nofun⟩

theorem branch_cases {i : Instr} {s : State} (w : Word) (taken : Bool) (imm : BitVec 16)
    (hc : i.isControlTransfer = true) : ∃ t, Effect i s t ∧ Ends i s t (branch w taken imm s) :=
  transfer_cases fun hp => ⟨s, .same i s, .inl ⟨some _, rfl, by simp [hc], fun _ => hp⟩⟩

/-- A control transfer that writes its link and latches a target. -/
theorem link_cases {i : Instr} {s : State} {r : Reg} (v t : Word) (hp : s.pending = none) (hd : i.destination = some r)
    (hs : i.isStore = false) (hc : i.isControlTransfer = true) :
    ∃ u, Effect i s u ∧ Ends i s u (complete (some t) (s.setX r v)) :=
  ⟨_, .setX v hd hs, .inl ⟨some t, rfl, by simp [hc], fun _ => hp⟩⟩

theorem branchLink_cases {i : Instr} {s : State} (w : Word) (rs : Reg) (taken : Bool) (imm : BitVec 16)
    (hd : i.destination = some 31#5) (hs : i.isStore = false) (hc : i.isControlTransfer = true) :
    ∃ t, Effect i s t ∧ Ends i s t (branchLink w rs taken imm s) :=
  transfer_cases fun hp => by
    split
    · exact ends_raise ⟨rfl, fun _ => rfl, by simp [Fault.code], by intro _ _ _; constructor <;> nofun⟩
    · exact link_cases _ _ hp hd hs hc

theorem raiseIllegal_cases (i j : Instr) (s : State) : ∃ t, Effect i s t ∧ Ends i s t (raiseIllegal j s) :=
  ends_raise ⟨rfl, fun _ => rfl, by simp [Fault.code], by intro _ _ _; constructor <;> nofun⟩

theorem execDiv_cases (rs rt rd : Reg) (sh : BitVec 5) (s : State) :
    ∃ t, Effect (.div rs rt rd sh) s t ∧ Ends (.div rs rt rd sh) s t (execDiv rs rt s) := by
  unfold execDiv
  split
  · exact ends_raise ⟨rfl, by simp [Fault.code], by simp [Fault.code], by intro _ _ _; constructor <;> nofun⟩
  split
  · exact ends_raise ⟨rfl, by simp [Fault.code], by simp [Fault.code], by intro _ _ _; constructor <;> nofun⟩
  · exact writeHiLo_cases _ _ rfl rfl rfl nofun nofun

theorem execDivu_cases (rs rt rd : Reg) (sh : BitVec 5) (s : State) :
    ∃ t, Effect (.divu rs rt rd sh) s t ∧ Ends (.divu rs rt rd sh) s t (execDivu rs rt s) := by
  unfold execDivu
  split
  · exact ends_raise ⟨rfl, by simp [Fault.code], by simp [Fault.code], by intro _ _ _; constructor <;> nofun⟩
  · exact writeHiLo_cases _ _ rfl rfl rfl nofun nofun

theorem execMthi_cases (rs rt rd : Reg) (sh : BitVec 5) (s : State) :
    ∃ t, Effect (.mthi rs rt rd sh) s t ∧ Ends (.mthi rs rt rd sh) s t (execMthi rs s) :=
  ⟨s.setHi (s.x rs), ⟨rfl, rfl, rfl, rfl, rfl, fun _ _ => rfl, by simp [Instr.writesHiLo], fun _ => rfl,
    fun _ => ⟨rfl, rfl⟩, nofun⟩, .inl ⟨none, rfl, by simp [Instr.isControlTransfer], nofun⟩⟩

theorem execMtlo_cases (rs rt rd : Reg) (sh : BitVec 5) (s : State) :
    ∃ t, Effect (.mtlo rs rt rd sh) s t ∧ Ends (.mtlo rs rt rd sh) s t (execMtlo rs s) :=
  ⟨s.setLo (s.x rs), ⟨rfl, rfl, rfl, rfl, rfl, fun _ _ => rfl, fun _ => rfl, by simp [Instr.writesHiLo],
    fun _ => ⟨rfl, rfl⟩, nofun⟩, .inl ⟨none, rfl, by simp [Instr.isControlTransfer], nofun⟩⟩

theorem execJal_cases (target : BitVec 26) (s : State) :
    ∃ t, Effect (.jal target) s t ∧ Ends (.jal target) s t (execJal target s) :=
  transfer_cases fun hp => by exact link_cases _ _ hp rfl rfl rfl

theorem execJalr_cases (rs rt rd : Reg) (sh : BitVec 5) (s : State) :
    ∃ t, Effect (.jalr rs rt rd sh) s t ∧ Ends (.jalr rs rt rd sh) s t (execJalr rs rt rd sh s) :=
  transfer_cases fun hp => by
    split
    · exact ends_raise ⟨rfl, fun _ => rfl, by simp [Fault.code], by intro _ _ _; constructor <;> nofun⟩
    · exact link_cases _ _ hp rfl rfl rfl

/-- Everything any instruction can do. -/
theorem exec_cases (i : Instr) (s : State) : ∃ t, Effect i s t ∧ Ends i s t (exec i s) := by
  cases i
  case addi | add | sub => exact writeTrapping_cases _ _ rfl rfl rfl
  case addiu | slti | sltiu | andi | ori | xori | lui | addu | subu | and | or | xor | nor | slt | sltu | sll | srl | sra
      | sllv | srlv | srav | mfhi | mflo => exact writeResult_cases _ rfl rfl rfl
  case mult | multu => exact writeHiLo_cases _ _ rfl rfl rfl nofun nofun
  case div => exact execDiv_cases ..
  case divu => exact execDivu_cases ..
  case mthi => exact execMthi_cases ..
  case mtlo => exact execMtlo_cases ..
  case lb | lbu | lh | lhu | lw => exact loadWith_cases _ _ _ _ rfl rfl rfl
  case sb | sh | sw => exact storeWith_cases _ _ _ _ rfl rfl
  case lwl | lwr => exact loadWalk_cases _ rfl rfl rfl
  case swl | swr => exact storeWalk_cases _ _ rfl rfl
  case beq | bne | blez | bgtz | bltz | bgez => exact branch_cases _ _ _ rfl
  case bltzal | bgezal => exact branchLink_cases _ _ _ _ rfl rfl rfl
  case j | jr => exact transfer_cases fun hp => ⟨s, .same _ s, .inl ⟨some _, rfl, by simp [Instr.isControlTransfer], fun _ => hp⟩⟩
  case jal => exact execJal_cases ..
  case jalr => exact execJalr_cases ..
  all_goals exact raiseIllegal_cases _ _ _

/-- Everything a step of a running machine can do: a fault of fetch or dispatch that changes the status alone, or the meaning
of the decoded instruction. -/
theorem step_cases {s : State} (h : s.Running) :
    (∃ f, step s = raise f s ∧ f.pc = s.pc ∧ f.code ≠ 10) ∨
    (∃ w i, fetch s = .ok w ∧ decodeWord w = .ok i ∧ step s = exec i s) := by
  unfold step
  rw [h]
  simp only
  split
  · next f hf =>
    refine .inl ⟨f, rfl, ?_⟩
    unfold fetch at hf
    split at hf
    · cases hf; simp [Fault.pc, Fault.code]
    · rcases busRead_error hf with rfl | rfl <;> simp [Fault.pc, Fault.code]
  · next w hw =>
    split
    · exact .inl ⟨_, rfl, rfl, by simp [Fault.code]⟩
    · next i hi => exact .inr ⟨w, i, hw, hi, rfl⟩

/-- A step that answers a next state was taken by a running machine. -/
theorem step_running {s t : State} (h : step s = .next t) : s.Running := by
  unfold step at h
  split at h
  · cases h
  · next e => exact e

/-- How an instruction that raises nothing ends: its effect, then the latch applied or `pc` advanced. -/
theorem exec_running {i : Instr} {s t : State} (h : exec i s = .next t) (ht : t.Running) :
    ∃ u next, Effect i s u ∧ s.Advances ∧ t = u.setFlow s.nextPc next ∧ (next ≠ none ↔ i.isControlTransfer = true) ∧
      (i.isControlTransfer = true → s.pending = none) := by
  obtain ⟨u, he, hE⟩ := exec_cases i s
  rcases hE with ⟨n, e, h1, h2⟩ | ⟨f, e, _⟩
  · rw [e] at h
    have hn : u.nextPc = s.nextPc := by simp [State.nextPc, he.pc, he.pending]
    rcases complete_cases n u with ⟨ha, e⟩ | ⟨_, e⟩ <;> rw [e] at h <;> cases h
    · exact ⟨u, n, he, (State.Advances_congr he.pc he.pending).1 ha, by rw [hn], h1, h2⟩
    · cases ht
  · rw [e] at h; cases h; cases ht

/-- Every next state of a step: the effect of some instruction, or none, then a fault in the status or a new `pc` and latch. -/
theorem step_next_cases {s t : State} (h : step s = .next t) :
    s.Running ∧ ((∃ f, t = s.setStatus (.faulted f)) ∨
      ∃ i u, Effect i s u ∧ ((∃ f, t = u.setStatus (.faulted f)) ∨ ∃ a next, t = u.setFlow a next)) := by
  have hs := step_running h
  refine ⟨hs, ?_⟩
  rcases step_cases hs with ⟨f, e, _⟩ | ⟨w, i, _, _, e⟩ <;> rw [e] at h
  · cases h; exact .inl ⟨f, rfl⟩
  · obtain ⟨u, he, hE⟩ := exec_cases i s
    refine .inr ⟨i, u, he, ?_⟩
    rcases hE with ⟨n, e, _⟩ | ⟨f, e, _⟩ <;> rw [e] at h
    · rcases complete_cases n u with ⟨_, e⟩ | ⟨_, e⟩ <;> rw [e] at h <;> cases h
      · exact .inr ⟨_, _, rfl⟩
      · exact .inl ⟨_, rfl⟩
    · cases h; exact .inl ⟨_, rfl⟩

end Sys2Proof.Machine
end

