-- ==== Sys2Proof/Laws/PerInstr.lean ====
section
/-! SUPPORT. Statements made of every instruction as syntax. TableBits: an encoded instruction has the bits its row of
spec/opcode_table.json fixes (30_encoding R109: "every row masks only the selecting bits"). -/

namespace Sys2Proof.Laws.TableBits

/-- The "match" and "mask" of the constructor's row in spec/opcode_table.json, copied from the table. -/
def row : Instr → Word × Word
  | .addi .. => (0x20000000#32, 0xFC000000#32)
  | .addiu .. => (0x24000000#32, 0xFC000000#32)
  | .slti .. => (0x28000000#32, 0xFC000000#32)
  | .sltiu .. => (0x2C000000#32, 0xFC000000#32)
  | .andi .. => (0x30000000#32, 0xFC000000#32)
  | .ori .. => (0x34000000#32, 0xFC000000#32)
  | .xori .. => (0x38000000#32, 0xFC000000#32)
  | .lui .. => (0x3C000000#32, 0xFC000000#32)
  | .add .. => (0x00000020#32, 0xFC00003F#32)
  | .addu .. => (0x00000021#32, 0xFC00003F#32)
  | .sub .. => (0x00000022#32, 0xFC00003F#32)
  | .subu .. => (0x00000023#32, 0xFC00003F#32)
  | .and .. => (0x00000024#32, 0xFC00003F#32)
  | .or .. => (0x00000025#32, 0xFC00003F#32)
  | .xor .. => (0x00000026#32, 0xFC00003F#32)
  | .nor .. => (0x00000027#32, 0xFC00003F#32)
  | .slt .. => (0x0000002A#32, 0xFC00003F#32)
  | .sltu .. => (0x0000002B#32, 0xFC00003F#32)
  | .sll .. => (0x00000000#32, 0xFC00003F#32)
  | .srl .. => (0x00000002#32, 0xFC00003F#32)
  | .sra .. => (0x00000003#32, 0xFC00003F#32)
  | .sllv .. => (0x00000004#32, 0xFC00003F#32)
  | .srlv .. => (0x00000006#32, 0xFC00003F#32)
  | .srav .. => (0x00000007#32, 0xFC00003F#32)
  | .mult .. => (0x00000018#32, 0xFC00003F#32)
  | .multu .. => (0x00000019#32, 0xFC00003F#32)
  | .div .. => (0x0000001A#32, 0xFC00003F#32)
  | .divu .. => (0x0000001B#32, 0xFC00003F#32)
  | .mfhi .. => (0x00000010#32, 0xFC00003F#32)
  | .mthi .. => (0x00000011#32, 0xFC00003F#32)
  | .mflo .. => (0x00000012#32, 0xFC00003F#32)
  | .mtlo .. => (0x00000013#32, 0xFC00003F#32)
  | .lb .. => (0x80000000#32, 0xFC000000#32)
  | .lbu .. => (0x90000000#32, 0xFC000000#32)
  | .lh .. => (0x84000000#32, 0xFC000000#32)
  | .lhu .. => (0x94000000#32, 0xFC000000#32)
  | .lw .. => (0x8C000000#32, 0xFC000000#32)
  | .sb .. => (0xA0000000#32, 0xFC000000#32)
  | .sh .. => (0xA4000000#32, 0xFC000000#32)
  | .sw .. => (0xAC000000#32, 0xFC000000#32)
  | .lwl .. => (0x88000000#32, 0xFC000000#32)
  | .lwr .. => (0x98000000#32, 0xFC000000#32)
  | .swl .. => (0xA8000000#32, 0xFC000000#32)
  | .swr .. => (0xB8000000#32, 0xFC000000#32)
  | .beq .. => (0x10000000#32, 0xFC000000#32)
  | .bne .. => (0x14000000#32, 0xFC000000#32)
  | .blez .. => (0x18000000#32, 0xFC000000#32)
  | .bgtz .. => (0x1C000000#32, 0xFC000000#32)
  | .bltz .. => (0x04000000#32, 0xFC1F0000#32)
  | .bgez .. => (0x04010000#32, 0xFC1F0000#32)
  | .bltzal .. => (0x04100000#32, 0xFC1F0000#32)
  | .bgezal .. => (0x04110000#32, 0xFC1F0000#32)
  | .j .. => (0x08000000#32, 0xFC000000#32)
  | .jal .. => (0x0C000000#32, 0xFC000000#32)
  | .jr .. => (0x00000008#32, 0xFC00003F#32)
  | .jalr .. => (0x00000009#32, 0xFC00003F#32)
  | .syscall .. => (0x0000000C#32, 0xFC00003F#32)
  | .brk .. => (0x0000000D#32, 0xFC00003F#32)
  | .cop0 .. => (0x40000000#32, 0xFC000000#32)
  | .cop1 .. => (0x44000000#32, 0xFC000000#32)
  | .cop2 .. => (0x48000000#32, 0xFC000000#32)
  | .cop3 .. => (0x4C000000#32, 0xFC000000#32)
  | .lwc0 .. => (0xC0000000#32, 0xFC000000#32)
  | .lwc1 .. => (0xC4000000#32, 0xFC000000#32)
  | .lwc2 .. => (0xC8000000#32, 0xFC000000#32)
  | .lwc3 .. => (0xCC000000#32, 0xFC000000#32)
  | .swc0 .. => (0xE0000000#32, 0xFC000000#32)
  | .swc1 .. => (0xE4000000#32, 0xFC000000#32)
  | .swc2 .. => (0xE8000000#32, 0xFC000000#32)
  | .swc3 .. => (0xEC000000#32, 0xFC000000#32)

/-- The encoded word, masked as the row says, is the row's match. -/
def Statement (i : Instr) : Prop := encode i &&& (row i).2 = (row i).1

theorem addi (rs rt : Reg) (imm : BitVec 16) : Statement (.addi rs rt imm) :=
  (packI_mask ..).trans rfl

theorem addiu (rs rt : Reg) (imm : BitVec 16) : Statement (.addiu rs rt imm) :=
  (packI_mask ..).trans rfl

theorem slti (rs rt : Reg) (imm : BitVec 16) : Statement (.slti rs rt imm) :=
  (packI_mask ..).trans rfl

theorem sltiu (rs rt : Reg) (imm : BitVec 16) : Statement (.sltiu rs rt imm) :=
  (packI_mask ..).trans rfl

theorem andi (rs rt : Reg) (imm : BitVec 16) : Statement (.andi rs rt imm) :=
  (packI_mask ..).trans rfl

theorem ori (rs rt : Reg) (imm : BitVec 16) : Statement (.ori rs rt imm) :=
  (packI_mask ..).trans rfl

theorem xori (rs rt : Reg) (imm : BitVec 16) : Statement (.xori rs rt imm) :=
  (packI_mask ..).trans rfl

theorem lui (rs rt : Reg) (imm : BitVec 16) : Statement (.lui rs rt imm) :=
  (packI_mask ..).trans rfl

theorem add (rs rt rd : Reg) (shamt : BitVec 5) : Statement (.add rs rt rd shamt) :=
  (packR_mask ..).trans rfl

theorem addu (rs rt rd : Reg) (shamt : BitVec 5) : Statement (.addu rs rt rd shamt) :=
  (packR_mask ..).trans rfl

theorem sub (rs rt rd : Reg) (shamt : BitVec 5) : Statement (.sub rs rt rd shamt) :=
  (packR_mask ..).trans rfl

theorem subu (rs rt rd : Reg) (shamt : BitVec 5) : Statement (.subu rs rt rd shamt) :=
  (packR_mask ..).trans rfl

theorem and (rs rt rd : Reg) (shamt : BitVec 5) : Statement (.and rs rt rd shamt) :=
  (packR_mask ..).trans rfl

theorem or (rs rt rd : Reg) (shamt : BitVec 5) : Statement (.or rs rt rd shamt) :=
  (packR_mask ..).trans rfl

theorem xor (rs rt rd : Reg) (shamt : BitVec 5) : Statement (.xor rs rt rd shamt) :=
  (packR_mask ..).trans rfl

theorem nor (rs rt rd : Reg) (shamt : BitVec 5) : Statement (.nor rs rt rd shamt) :=
  (packR_mask ..).trans rfl

theorem slt (rs rt rd : Reg) (shamt : BitVec 5) : Statement (.slt rs rt rd shamt) :=
  (packR_mask ..).trans rfl

theorem sltu (rs rt rd : Reg) (shamt : BitVec 5) : Statement (.sltu rs rt rd shamt) :=
  (packR_mask ..).trans rfl

theorem sll (rs rt rd : Reg) (shamt : BitVec 5) : Statement (.sll rs rt rd shamt) :=
  (packR_mask ..).trans rfl

theorem srl (rs rt rd : Reg) (shamt : BitVec 5) : Statement (.srl rs rt rd shamt) :=
  (packR_mask ..).trans rfl

theorem sra (rs rt rd : Reg) (shamt : BitVec 5) : Statement (.sra rs rt rd shamt) :=
  (packR_mask ..).trans rfl

theorem sllv (rs rt rd : Reg) (shamt : BitVec 5) : Statement (.sllv rs rt rd shamt) :=
  (packR_mask ..).trans rfl

theorem srlv (rs rt rd : Reg) (shamt : BitVec 5) : Statement (.srlv rs rt rd shamt) :=
  (packR_mask ..).trans rfl

theorem srav (rs rt rd : Reg) (shamt : BitVec 5) : Statement (.srav rs rt rd shamt) :=
  (packR_mask ..).trans rfl

theorem mult (rs rt rd : Reg) (shamt : BitVec 5) : Statement (.mult rs rt rd shamt) :=
  (packR_mask ..).trans rfl

theorem multu (rs rt rd : Reg) (shamt : BitVec 5) : Statement (.multu rs rt rd shamt) :=
  (packR_mask ..).trans rfl

theorem div (rs rt rd : Reg) (shamt : BitVec 5) : Statement (.div rs rt rd shamt) :=
  (packR_mask ..).trans rfl

theorem divu (rs rt rd : Reg) (shamt : BitVec 5) : Statement (.divu rs rt rd shamt) :=
  (packR_mask ..).trans rfl

theorem mfhi (rs rt rd : Reg) (shamt : BitVec 5) : Statement (.mfhi rs rt rd shamt) :=
  (packR_mask ..).trans rfl

theorem mthi (rs rt rd : Reg) (shamt : BitVec 5) : Statement (.mthi rs rt rd shamt) :=
  (packR_mask ..).trans rfl

theorem mflo (rs rt rd : Reg) (shamt : BitVec 5) : Statement (.mflo rs rt rd shamt) :=
  (packR_mask ..).trans rfl

theorem mtlo (rs rt rd : Reg) (shamt : BitVec 5) : Statement (.mtlo rs rt rd shamt) :=
  (packR_mask ..).trans rfl

theorem lb (rs rt : Reg) (imm : BitVec 16) : Statement (.lb rs rt imm) :=
  (packI_mask ..).trans rfl

theorem lbu (rs rt : Reg) (imm : BitVec 16) : Statement (.lbu rs rt imm) :=
  (packI_mask ..).trans rfl

theorem lh (rs rt : Reg) (imm : BitVec 16) : Statement (.lh rs rt imm) :=
  (packI_mask ..).trans rfl

theorem lhu (rs rt : Reg) (imm : BitVec 16) : Statement (.lhu rs rt imm) :=
  (packI_mask ..).trans rfl

theorem lw (rs rt : Reg) (imm : BitVec 16) : Statement (.lw rs rt imm) :=
  (packI_mask ..).trans rfl

theorem sb (rs rt : Reg) (imm : BitVec 16) : Statement (.sb rs rt imm) :=
  (packI_mask ..).trans rfl

theorem sh (rs rt : Reg) (imm : BitVec 16) : Statement (.sh rs rt imm) :=
  (packI_mask ..).trans rfl

theorem sw (rs rt : Reg) (imm : BitVec 16) : Statement (.sw rs rt imm) :=
  (packI_mask ..).trans rfl

theorem lwl (rs rt : Reg) (imm : BitVec 16) : Statement (.lwl rs rt imm) :=
  (packI_mask ..).trans rfl

theorem lwr (rs rt : Reg) (imm : BitVec 16) : Statement (.lwr rs rt imm) :=
  (packI_mask ..).trans rfl

theorem swl (rs rt : Reg) (imm : BitVec 16) : Statement (.swl rs rt imm) :=
  (packI_mask ..).trans rfl

theorem swr (rs rt : Reg) (imm : BitVec 16) : Statement (.swr rs rt imm) :=
  (packI_mask ..).trans rfl

theorem beq (rs rt : Reg) (imm : BitVec 16) : Statement (.beq rs rt imm) :=
  (packI_mask ..).trans rfl

theorem bne (rs rt : Reg) (imm : BitVec 16) : Statement (.bne rs rt imm) :=
  (packI_mask ..).trans rfl

theorem blez (rs rt : Reg) (imm : BitVec 16) : Statement (.blez rs rt imm) :=
  (packI_mask ..).trans rfl

theorem bgtz (rs rt : Reg) (imm : BitVec 16) : Statement (.bgtz rs rt imm) :=
  (packI_mask ..).trans rfl

theorem bltz (rs : Reg) (imm : BitVec 16) : Statement (.bltz rs imm) :=
  (packI_regimm_mask ..).trans rfl

theorem bgez (rs : Reg) (imm : BitVec 16) : Statement (.bgez rs imm) :=
  (packI_regimm_mask ..).trans rfl

theorem bltzal (rs : Reg) (imm : BitVec 16) : Statement (.bltzal rs imm) :=
  (packI_regimm_mask ..).trans rfl

theorem bgezal (rs : Reg) (imm : BitVec 16) : Statement (.bgezal rs imm) :=
  (packI_regimm_mask ..).trans rfl

theorem j (target : BitVec 26) : Statement (.j target) :=
  (packJ_mask ..).trans rfl

theorem jal (target : BitVec 26) : Statement (.jal target) :=
  (packJ_mask ..).trans rfl

theorem jr (rs rt rd : Reg) (shamt : BitVec 5) : Statement (.jr rs rt rd shamt) :=
  (packR_mask ..).trans rfl

theorem jalr (rs rt rd : Reg) (shamt : BitVec 5) : Statement (.jalr rs rt rd shamt) :=
  (packR_mask ..).trans rfl

theorem syscall (code : BitVec 20) : Statement (.syscall code) :=
  (packCode_mask ..).trans rfl

theorem brk (code : BitVec 20) : Statement (.brk code) :=
  (packCode_mask ..).trans rfl

theorem cop0 (rest : BitVec 26) : Statement (.cop0 rest) :=
  (packJ_mask ..).trans rfl

theorem cop1 (rest : BitVec 26) : Statement (.cop1 rest) :=
  (packJ_mask ..).trans rfl

theorem cop2 (rest : BitVec 26) : Statement (.cop2 rest) :=
  (packJ_mask ..).trans rfl

theorem cop3 (rest : BitVec 26) : Statement (.cop3 rest) :=
  (packJ_mask ..).trans rfl

theorem lwc0 (rest : BitVec 26) : Statement (.lwc0 rest) :=
  (packJ_mask ..).trans rfl

theorem lwc1 (rest : BitVec 26) : Statement (.lwc1 rest) :=
  (packJ_mask ..).trans rfl

theorem lwc2 (rest : BitVec 26) : Statement (.lwc2 rest) :=
  (packJ_mask ..).trans rfl

theorem lwc3 (rest : BitVec 26) : Statement (.lwc3 rest) :=
  (packJ_mask ..).trans rfl

theorem swc0 (rest : BitVec 26) : Statement (.swc0 rest) :=
  (packJ_mask ..).trans rfl

theorem swc1 (rest : BitVec 26) : Statement (.swc1 rest) :=
  (packJ_mask ..).trans rfl

theorem swc2 (rest : BitVec 26) : Statement (.swc2 rest) :=
  (packJ_mask ..).trans rfl

theorem swc3 (rest : BitVec 26) : Statement (.swc3 rest) :=
  (packJ_mask ..).trans rfl

end Sys2Proof.Laws.TableBits
end

