-- ==== Sys2Proof/Tests/Slice0.lean ====
section
/-! SUPPORT. The model's own tests. Expected results come from spec/: the encodings of 30_encoding and the family files, and the vectors
of 95_test_vectors (named in each comment). Then a witness for every obligation that has hypotheses. -/

namespace Sys2Proof.Tests

open Sys2Proof Sys2Proof.Machine

/-! ## Well-formedness -/

theorem test_wellformed_refuses_illegal_rows :
    ([.syscall 0#20, .brk 0#20, .cop0 0#26, .cop1 0#26, .cop2 0#26, .cop3 0#26, .lwc0 0#26, .lwc1 0#26, .lwc2 0#26,
      .lwc3 0#26, .swc0 0#26, .swc1 0#26, .swc2 0#26, .swc3 0#26] : List Instr).all (fun i => !i.admitted && !i.wellFormed)
      = true := by decide

theorem test_wellformed_refuses_link_conflicts :
    ([.jalr 5#5 0#5 5#5 0#5, .bltzal 31#5 0#16, .bgezal 31#5 0#16] : List Instr).all
      (fun i => i.admitted && !i.operandsPredictable && !i.wellFormed) = true := by decide

theorem test_wellformed_accepts :
    ([.jalr 0#5 0#5 0#5 0#5, .jalr 5#5 0#5 31#5 0#5, .bltzal 30#5 0#16, .sll 0#5 0#5 0#5 0#5, .swr 1#5 2#5 3#16]
      : List Instr).all Instr.wellFormed = true := by decide

/-! ## Decoding: one word per constructor, its fields written bit by bit -/

/-- 40_alu_immediate R131 to R138. -/
theorem test_decode_alu_immediate :
    decodeWord 0b001000_00001_00010_1000000000000101#32 = .ok (.addi 1#5 2#5 0x8005#16) ∧
    decodeWord 0b001001_00001_00010_1000000000000101#32 = .ok (.addiu 1#5 2#5 0x8005#16) ∧
    decodeWord 0b001010_00001_00010_1000000000000101#32 = .ok (.slti 1#5 2#5 0x8005#16) ∧
    decodeWord 0b001011_00001_00010_1000000000000101#32 = .ok (.sltiu 1#5 2#5 0x8005#16) ∧
    decodeWord 0b001100_00001_00010_1000000000000101#32 = .ok (.andi 1#5 2#5 0x8005#16) ∧
    decodeWord 0b001101_00001_00010_1000000000000101#32 = .ok (.ori 1#5 2#5 0x8005#16) ∧
    decodeWord 0b001110_00001_00010_1000000000000101#32 = .ok (.xori 1#5 2#5 0x8005#16) ∧
    decodeWord 0b001111_00001_00010_1000000000000101#32 = .ok (.lui 1#5 2#5 0x8005#16) := by
  decide

/-- 41_alu_register R150 to R157, R160, R161. -/
theorem test_decode_alu_register :
    decodeWord 0b000000_10001_00010_00011_00100_100000#32 = .ok (.add 17#5 2#5 3#5 4#5) ∧
    decodeWord 0b000000_10001_00010_00011_00100_100001#32 = .ok (.addu 17#5 2#5 3#5 4#5) ∧
    decodeWord 0b000000_10001_00010_00011_00100_100010#32 = .ok (.sub 17#5 2#5 3#5 4#5) ∧
    decodeWord 0b000000_10001_00010_00011_00100_100011#32 = .ok (.subu 17#5 2#5 3#5 4#5) ∧
    decodeWord 0b000000_10001_00010_00011_00100_100100#32 = .ok (.and 17#5 2#5 3#5 4#5) ∧
    decodeWord 0b000000_10001_00010_00011_00100_100101#32 = .ok (.or 17#5 2#5 3#5 4#5) ∧
    decodeWord 0b000000_10001_00010_00011_00100_100110#32 = .ok (.xor 17#5 2#5 3#5 4#5) ∧
    decodeWord 0b000000_10001_00010_00011_00100_100111#32 = .ok (.nor 17#5 2#5 3#5 4#5) ∧
    decodeWord 0b000000_10001_00010_00011_00100_101010#32 = .ok (.slt 17#5 2#5 3#5 4#5) ∧
    decodeWord 0b000000_10001_00010_00011_00100_101011#32 = .ok (.sltu 17#5 2#5 3#5 4#5) := by
  decide

/-- 41_alu_register R162 to R167. -/
theorem test_decode_shifts :
    decodeWord 0b000000_10001_00010_00011_00100_000000#32 = .ok (.sll 17#5 2#5 3#5 4#5) ∧
    decodeWord 0b000000_10001_00010_00011_00100_000010#32 = .ok (.srl 17#5 2#5 3#5 4#5) ∧
    decodeWord 0b000000_10001_00010_00011_00100_000011#32 = .ok (.sra 17#5 2#5 3#5 4#5) ∧
    decodeWord 0b000000_10001_00010_00011_00100_000100#32 = .ok (.sllv 17#5 2#5 3#5 4#5) ∧
    decodeWord 0b000000_10001_00010_00011_00100_000110#32 = .ok (.srlv 17#5 2#5 3#5 4#5) ∧
    decodeWord 0b000000_10001_00010_00011_00100_000111#32 = .ok (.srav 17#5 2#5 3#5 4#5) := by
  decide

/-- 42_muldiv R180 to R187. -/
theorem test_decode_muldiv :
    decodeWord 0b000000_10001_00010_00011_00100_011000#32 = .ok (.mult 17#5 2#5 3#5 4#5) ∧
    decodeWord 0b000000_10001_00010_00011_00100_011001#32 = .ok (.multu 17#5 2#5 3#5 4#5) ∧
    decodeWord 0b000000_10001_00010_00011_00100_011010#32 = .ok (.div 17#5 2#5 3#5 4#5) ∧
    decodeWord 0b000000_10001_00010_00011_00100_011011#32 = .ok (.divu 17#5 2#5 3#5 4#5) ∧
    decodeWord 0b000000_10001_00010_00011_00100_010000#32 = .ok (.mfhi 17#5 2#5 3#5 4#5) ∧
    decodeWord 0b000000_10001_00010_00011_00100_010001#32 = .ok (.mthi 17#5 2#5 3#5 4#5) ∧
    decodeWord 0b000000_10001_00010_00011_00100_010010#32 = .ok (.mflo 17#5 2#5 3#5 4#5) ∧
    decodeWord 0b000000_10001_00010_00011_00100_010011#32 = .ok (.mtlo 17#5 2#5 3#5 4#5) := by
  decide

/-- 43_loadstore R202 to R214. -/
theorem test_decode_loads_stores :
    decodeWord 0b100000_00001_00010_1000000000000101#32 = .ok (.lb 1#5 2#5 0x8005#16) ∧
    decodeWord 0b100100_00001_00010_1000000000000101#32 = .ok (.lbu 1#5 2#5 0x8005#16) ∧
    decodeWord 0b100001_00001_00010_1000000000000101#32 = .ok (.lh 1#5 2#5 0x8005#16) ∧
    decodeWord 0b100101_00001_00010_1000000000000101#32 = .ok (.lhu 1#5 2#5 0x8005#16) ∧
    decodeWord 0b100011_00001_00010_1000000000000101#32 = .ok (.lw 1#5 2#5 0x8005#16) ∧
    decodeWord 0b101000_00001_00010_1000000000000101#32 = .ok (.sb 1#5 2#5 0x8005#16) ∧
    decodeWord 0b101001_00001_00010_1000000000000101#32 = .ok (.sh 1#5 2#5 0x8005#16) ∧
    decodeWord 0b101011_00001_00010_1000000000000101#32 = .ok (.sw 1#5 2#5 0x8005#16) ∧
    decodeWord 0b100010_00001_00010_1000000000000101#32 = .ok (.lwl 1#5 2#5 0x8005#16) ∧
    decodeWord 0b100110_00001_00010_1000000000000101#32 = .ok (.lwr 1#5 2#5 0x8005#16) ∧
    decodeWord 0b101010_00001_00010_1000000000000101#32 = .ok (.swl 1#5 2#5 0x8005#16) ∧
    decodeWord 0b101110_00001_00010_1000000000000101#32 = .ok (.swr 1#5 2#5 0x8005#16) := by
  decide

/-- 44_control R240 to R247. -/
theorem test_decode_branches :
    decodeWord 0b000100_00001_00010_1000000000000101#32 = .ok (.beq 1#5 2#5 0x8005#16) ∧
    decodeWord 0b000101_00001_00010_1000000000000101#32 = .ok (.bne 1#5 2#5 0x8005#16) ∧
    decodeWord 0b000110_00001_00010_1000000000000101#32 = .ok (.blez 1#5 2#5 0x8005#16) ∧
    decodeWord 0b000111_00001_00010_1000000000000101#32 = .ok (.bgtz 1#5 2#5 0x8005#16) ∧
    decodeWord 0b000001_00001_00000_1000000000000101#32 = .ok (.bltz 1#5 0x8005#16) ∧
    decodeWord 0b000001_00001_00001_1000000000000101#32 = .ok (.bgez 1#5 0x8005#16) ∧
    decodeWord 0b000001_00001_10000_1000000000000101#32 = .ok (.bltzal 1#5 0x8005#16) ∧
    decodeWord 0b000001_00001_10001_1000000000000101#32 = .ok (.bgezal 1#5 0x8005#16) := by
  decide

/-- 44_control R248 to R251. -/
theorem test_decode_jumps :
    decodeWord 0b000010_10000000000000000000000101#32 = .ok (.j 0x2000005#26) ∧
    decodeWord 0b000011_10000000000000000000000101#32 = .ok (.jal 0x2000005#26) ∧
    decodeWord 0b000000_10001_00010_00011_00100_001000#32 = .ok (.jr 17#5 2#5 3#5 4#5) ∧
    decodeWord 0b000000_10001_00010_00011_00100_001001#32 = .ok (.jalr 17#5 2#5 3#5 4#5) := by
  decide

/-- 45_system R260 to R262. -/
theorem test_decode_illegal_rows :
    decodeWord 0b000000_10000000000000000101_001100#32 = .ok (.syscall 0x80005#20) ∧
    decodeWord 0b000000_10000000000000000101_001101#32 = .ok (.brk 0x80005#20) ∧
    decodeWord 0b010000_10000000000000000000000101#32 = .ok (.cop0 0x2000005#26) ∧
    decodeWord 0b010001_10000000000000000000000101#32 = .ok (.cop1 0x2000005#26) ∧
    decodeWord 0b010010_10000000000000000000000101#32 = .ok (.cop2 0x2000005#26) ∧
    decodeWord 0b010011_10000000000000000000000101#32 = .ok (.cop3 0x2000005#26) ∧
    decodeWord 0b110000_10000000000000000000000101#32 = .ok (.lwc0 0x2000005#26) ∧
    decodeWord 0b110001_10000000000000000000000101#32 = .ok (.lwc1 0x2000005#26) ∧
    decodeWord 0b110010_10000000000000000000000101#32 = .ok (.lwc2 0x2000005#26) ∧
    decodeWord 0b110011_10000000000000000000000101#32 = .ok (.lwc3 0x2000005#26) ∧
    decodeWord 0b111000_10000000000000000000000101#32 = .ok (.swc0 0x2000005#26) ∧
    decodeWord 0b111001_10000000000000000000000101#32 = .ok (.swc1 0x2000005#26) ∧
    decodeWord 0b111010_10000000000000000000000101#32 = .ok (.swc2 0x2000005#26) ∧
    decodeWord 0b111011_10000000000000000000000101#32 = .ok (.swc3 0x2000005#26) := by
  decide

/-- 30_encoding R108: SYNC, SPECIAL funct 1, opcode 0x3F, REGIMM rt 2, and a stream that ends early (R110). -/
theorem test_decode_rejects :
    decodeWord 0x0000000F#32 = .error (.reservedFunct 0x0F#6) ∧
    decodeWord 0x00000001#32 = .error (.reservedFunct 0x01#6) ∧
    decodeWord 0xFC000000#32 = .error (.reservedOpcode 0x3F#6) ∧
    decodeWord 0x04020000#32 = .error (.reservedRegimm 0x02#5) ∧
    decodeBytes [0#8, 0#8, 0#8] = .error .truncated := by
  decide

/-! ## One step, from the vectors of 95_test_vectors -/

/-- The start of a one-step vector: `word` at `A = 0x800`, the registers given, the bytes given. -/
def start (word : Word) (regs : List (Reg × Word)) (bytes : List Host.Cell := []) : State :=
  (applyLoader regs { State.reset with pc := 0x800#32, mem := bytes }).withFetchWord 32 word.toNat

/-- The same with `TRAP_ON_OVERFLOW`. -/
def trapping (s : State) : State := { s with params := { s.params with trapOnOverflow := true } }

/-- What `f` sees of the state after one step. -/
def after {α : Type} (s : State) (f : State → α) : Option α :=
  match step s with
  | .next t => some (f t)
  | .fault _ | .refused _ => none

/-- The fault a step takes. -/
def faultOf (t : State) : Option Fault :=
  match t.status with
  | .faulted f => some f
  | .running => none

/-- Bytes 0x100 to 0x107. -/
def window (t : State) : List Nat := (List.range 8).map (fun k => (t.mem.read (0x100 + k)).toNat)

/-- The bytes of L2.4. -/
def loadBytes : List Host.Cell :=
  [(0x100, 0x80#8), (0x101, 0x01#8), (0x102, 0xFF#8), (0x103, 0x7F#8), (0x104, 0x11#8), (0x105, 0x22#8), (0x106, 0x33#8),
   (0x107, 0x44#8)]

/-- The bytes of L2.5. -/
def storeBytes : List Host.Cell := (List.range 8).map (fun k => (0x100 + k, 0xEE#8))

/-! L1.3, L1.5, L2.1 -/

theorem test_addi_sign :
    after (start 0x2022FFFF#32 [(1#5, 0x5#32)]) (fun t => (t.x 2#5, t.pc, t.pending)) =
      some (0x4#32, 0x804#32, none) := by decide

theorem test_addi_trap :
    after (trapping (start 0x20220001#32 [(1#5, 0x7FFFFFFF#32)])) (fun t => faultOf t) =
      some (some (.arithmeticOverflow 0x800#32)) := by decide

theorem test_addiu_never_traps :
    after (trapping (start 0x24220001#32 [(1#5, 0x7FFFFFFF#32)])) (fun t => (t.x 2#5, t.pc, t.pending)) =
      some (0x80000000#32, 0x804#32, none) := by decide

theorem test_addiu :
    after (start 0x24227FFF#32 [(1#5, 0x1#32)]) (fun t => (t.x 2#5, t.pc, t.pending)) =
      some (0x8000#32, 0x804#32, none) := by decide

theorem test_slti :
    after (start 0x2822FFFF#32 [(1#5, 0xFFFFFFFE#32)]) (fun t => (t.x 2#5, t.pc, t.pending)) =
      some (0x1#32, 0x804#32, none) := by decide

theorem test_slti_no :
    after (start 0x2822FFFF#32 [(1#5, 0x0#32), (2#5, 0x9#32)]) (fun t => (t.x 2#5, t.pc, t.pending)) =
      some (0x0#32, 0x804#32, none) := by decide

theorem test_sltiu :
    after (start 0x2C22FFFF#32 [(1#5, 0x5#32)]) (fun t => (t.x 2#5, t.pc, t.pending)) =
      some (0x1#32, 0x804#32, none) := by decide

theorem test_sltiu_no :
    after (start 0x2C22FFFF#32 [(1#5, 0xFFFFFFFF#32), (2#5, 0x9#32)]) (fun t => (t.x 2#5, t.pc, t.pending)) =
      some (0x0#32, 0x804#32, none) := by decide

theorem test_andi :
    after (start 0x30228000#32 [(1#5, 0xFFFFFFFF#32)]) (fun t => (t.x 2#5, t.pc, t.pending)) =
      some (0x8000#32, 0x804#32, none) := by decide

theorem test_ori :
    after (start 0x34228000#32 [(1#5, 0x12340000#32)]) (fun t => (t.x 2#5, t.pc, t.pending)) =
      some (0x12348000#32, 0x804#32, none) := by decide

theorem test_xori :
    after (start 0x3822FFFF#32 [(1#5, 0xFFFFFFFF#32)]) (fun t => (t.x 2#5, t.pc, t.pending)) =
      some (0xFFFF0000#32, 0x804#32, none) := by decide

theorem test_lui_ignores_rs :
    after (start 0x3CA1FFFF#32 [(5#5, 0x7#32)]) (fun t => (t.x 1#5, t.pc, t.pending)) =
      some (0xFFFF0000#32, 0x804#32, none) := by decide

theorem test_lui_zero :
    after (start 0x3C00FFFF#32 []) (fun t => (t.x 0#5, t.pc, t.pending)) =
      some (0x0#32, 0x804#32, none) := by decide

/-! L2.2 -/

theorem test_add :
    after (start 0x221820#32 [(1#5, 0x7FFFFFFF#32), (2#5, 0x1#32)]) (fun t => (t.x 3#5, t.pc, t.pending)) =
      some (0x80000000#32, 0x804#32, none) := by decide

theorem test_add_trap :
    after (trapping (start 0x221820#32 [(1#5, 0x7FFFFFFF#32), (2#5, 0x1#32)])) (fun t => faultOf t) =
      some (some (.arithmeticOverflow 0x800#32)) := by decide

theorem test_addu :
    after (start 0x221821#32 [(1#5, 0xFFFFFFFF#32), (2#5, 0x1#32), (3#5, 0x9#32)]) (fun t => (t.x 3#5, t.pc, t.pending)) =
      some (0x0#32, 0x804#32, none) := by decide

theorem test_sub :
    after (trapping (start 0x221822#32 [(1#5, 0x0#32), (2#5, 0x1#32)])) (fun t => (t.x 3#5, t.pc, t.pending)) =
      some (0xFFFFFFFF#32, 0x804#32, none) := by decide

theorem test_sub_trap :
    after (trapping (start 0x221822#32 [(1#5, 0x80000000#32), (2#5, 0x1#32)])) (fun t => faultOf t) =
      some (some (.arithmeticOverflow 0x800#32)) := by decide

theorem test_subu :
    after (trapping (start 0x221823#32 [(1#5, 0x80000000#32), (2#5, 0x1#32)])) (fun t => (t.x 3#5, t.pc, t.pending)) =
      some (0x7FFFFFFF#32, 0x804#32, none) := by decide

theorem test_and :
    after (start 0x221824#32 [(1#5, 0xF0F0F0F0#32), (2#5, 0xFF00FF00#32)]) (fun t => (t.x 3#5, t.pc, t.pending)) =
      some (0xF000F000#32, 0x804#32, none) := by decide

theorem test_or :
    after (start 0x221825#32 [(1#5, 0xF0F0F0F0#32), (2#5, 0xFF00FF00#32)]) (fun t => (t.x 3#5, t.pc, t.pending)) =
      some (0xFFF0FFF0#32, 0x804#32, none) := by decide

theorem test_xor :
    after (start 0x221826#32 [(1#5, 0xF0F0F0F0#32), (2#5, 0xFF00FF00#32)]) (fun t => (t.x 3#5, t.pc, t.pending)) =
      some (0xFF00FF0#32, 0x804#32, none) := by decide

theorem test_nor :
    after (start 0x221827#32 [(1#5, 0xF0F0F0F0#32), (2#5, 0xFF00FF00#32)]) (fun t => (t.x 3#5, t.pc, t.pending)) =
      some (0xF000F#32, 0x804#32, none) := by decide

theorem test_slt :
    after (start 0x22182A#32 [(1#5, 0xFFFFFFFF#32), (2#5, 0x1#32)]) (fun t => (t.x 3#5, t.pc, t.pending)) =
      some (0x1#32, 0x804#32, none) := by decide

theorem test_slt_no :
    after (start 0x22182A#32 [(1#5, 0x5#32), (2#5, 0x5#32), (3#5, 0x9#32)]) (fun t => (t.x 3#5, t.pc, t.pending)) =
      some (0x0#32, 0x804#32, none) := by decide

theorem test_sltu :
    after (start 0x22182B#32 [(1#5, 0xFFFFFFFF#32), (2#5, 0x1#32), (3#5, 0x9#32)]) (fun t => (t.x 3#5, t.pc, t.pending)) =
      some (0x0#32, 0x804#32, none) := by decide

theorem test_sll :
    after (start 0x11100#32 [(1#5, 0x80000001#32)]) (fun t => (t.x 2#5, t.pc, t.pending)) =
      some (0x10#32, 0x804#32, none) := by decide

theorem test_sll_nop :
    after (start 0x0#32 []) (fun t => t == (start 0x0#32 []).setFlow 0x804#32 none) =
      some true := by decide

theorem test_srl :
    after (start 0x11102#32 [(1#5, 0x80000000#32)]) (fun t => (t.x 2#5, t.pc, t.pending)) =
      some (0x8000000#32, 0x804#32, none) := by decide

theorem test_sra :
    after (start 0x11103#32 [(1#5, 0x80000000#32)]) (fun t => (t.x 2#5, t.pc, t.pending)) =
      some (0xF8000000#32, 0x804#32, none) := by decide

theorem test_sra_31 :
    after (start 0x117C3#32 [(1#5, 0x7FFFFFFF#32), (2#5, 0x9#32)]) (fun t => (t.x 2#5, t.pc, t.pending)) =
      some (0x0#32, 0x804#32, none) := by decide

theorem test_sllv :
    after (start 0x611004#32 [(1#5, 0x1#32), (3#5, 0x21#32)]) (fun t => (t.x 2#5, t.pc, t.pending)) =
      some (0x2#32, 0x804#32, none) := by decide

theorem test_srlv :
    after (start 0x611006#32 [(1#5, 0x80000000#32), (3#5, 0x20#32)]) (fun t => (t.x 2#5, t.pc, t.pending)) =
      some (0x80000000#32, 0x804#32, none) := by decide

theorem test_srav :
    after (start 0x611007#32 [(1#5, 0x80000000#32), (3#5, 0x1F#32)]) (fun t => (t.x 2#5, t.pc, t.pending)) =
      some (0xFFFFFFFF#32, 0x804#32, none) := by decide

theorem test_srav_rd_is_rs :
    after (start 0x611807#32 [(1#5, 0x80000000#32), (3#5, 0x4#32)]) (fun t => (t.x 3#5, t.pc, t.pending)) =
      some (0xF8000000#32, 0x804#32, none) := by decide

/-! L1.7, L2.3 -/

theorem test_mult :
    after (start 0x220018#32 [(1#5, 0xFFFFFFF9#32), (2#5, 0x2#32)]) (fun t => (t.hi, t.lo, t.pc)) =
      some (0xFFFFFFFF#32, 0xFFFFFFF2#32, 0x804#32) := by decide

theorem test_mult_min :
    after (start 0x220018#32 [(1#5, 0x80000000#32), (2#5, 0x80000000#32)]) (fun t => (t.hi, t.lo, t.pc)) =
      some (0x40000000#32, 0x0#32, 0x804#32) := by decide

theorem test_multu :
    after (start 0x220019#32 [(1#5, 0xFFFFFFFF#32), (2#5, 0xFFFFFFFF#32)]) (fun t => (t.hi, t.lo, t.pc)) =
      some (0xFFFFFFFE#32, 0x1#32, 0x804#32) := by decide

theorem test_div :
    after (start 0x22001A#32 [(1#5, 0xFFFFFFF9#32), (2#5, 0x2#32)]) (fun t => (t.hi, t.lo, t.pc)) =
      some (0xFFFFFFFF#32, 0xFFFFFFFD#32, 0x804#32) := by decide

theorem test_div_overflow :
    after (start 0x22001A#32 [(1#5, 0x80000000#32), (2#5, 0xFFFFFFFF#32)]) (fun t => faultOf t) =
      some (some (.divideOverflow 0x800#32)) := by decide

theorem test_divu :
    after (start 0x22001B#32 [(1#5, 0x80000000#32), (2#5, 0xFFFFFFFF#32)]) (fun t => (t.hi, t.lo, t.pc)) =
      some (0x80000000#32, 0x0#32, 0x804#32) := by decide

theorem test_divu_zero :
    after (start 0x22001B#32 [(1#5, 0x7#32)]) (fun t => faultOf t) =
      some (some (.divideByZero 0x800#32)) := by decide

theorem test_mfhi : after ((start 0x00002010#32 []).setHi 0xDEADBEEF#32) (fun t => t.x 4#5) = some 0xDEADBEEF#32 := by decide

theorem test_mflo : after ((start 0x00002012#32 []).setLo 0xCAFEF00D#32) (fun t => t.x 4#5) = some 0xCAFEF00D#32 := by decide

theorem test_mthi : after ((start 0x00800011#32 [(4#5, 0x1234#32)]).setLo 7#32) (fun t => (t.hi, t.lo)) = some (0x1234#32, 7#32) := by decide

theorem test_mtlo : after ((start 0x00800013#32 [(4#5, 0x1234#32)]).setHi 7#32) (fun t => (t.hi, t.lo)) = some (7#32, 0x1234#32) := by decide

/-! L2.4 -/

theorem test_lb :
    after (start 0x80220000#32 [(1#5, 0x100#32)] loadBytes) (fun t => (t.x 2#5, t.pc, t.pending)) =
      some (0xFFFFFF80#32, 0x804#32, none) := by decide

theorem test_lb_halt :
    after (start 0x80023000#32 [(2#5, 0x9#32)]) (fun t => (t.x 2#5, t.pc, t.pending)) =
      some (0x0#32, 0x804#32, none) := by decide

theorem test_lbu :
    after (start 0x90220000#32 [(1#5, 0x100#32)] loadBytes) (fun t => (t.x 2#5, t.pc, t.pending)) =
      some (0x80#32, 0x804#32, none) := by decide

theorem test_lh_misaligned :
    after (start 0x84220001#32 [(1#5, 0x100#32)] loadBytes) (fun t => (t.x 2#5, t.pc, t.pending)) =
      some (0xFFFFFF01#32, 0x804#32, none) := by decide

theorem test_lh :
    after (start 0x84220002#32 [(1#5, 0x100#32)] loadBytes) (fun t => (t.x 2#5, t.pc, t.pending)) =
      some (0x7FFF#32, 0x804#32, none) := by decide

theorem test_lhu_misaligned :
    after (start 0x94220001#32 [(1#5, 0x100#32)] loadBytes) (fun t => (t.x 2#5, t.pc, t.pending)) =
      some (0xFF01#32, 0x804#32, none) := by decide

theorem test_lw_wraps :
    after (start 0x8C220110#32 [(1#5, 0xFFFFFFF0#32)] loadBytes) (fun t => (t.x 2#5, t.pc, t.pending)) =
      some (0x7FFF0180#32, 0x804#32, none) := by decide

theorem test_lw_into_zero_reads :
    after (start 0x8C200000#32 [(1#5, 0x5000#32)]) (fun t => faultOf t) =
      some (some (.invalidAddress 0x5000#32 .read .word 0x800#32)) := by decide

theorem test_lwl_1 :
    after (start 0x88230001#32 [(1#5, 0x104#32), (3#5, 0xAABBCCDD#32)] loadBytes) (fun t => (t.x 3#5, t.pc, t.pending)) =
      some (0x2211CCDD#32, 0x804#32, none) := by decide

theorem test_lwl_3 :
    after (start 0x88230003#32 [(1#5, 0x104#32), (3#5, 0xAABBCCDD#32)] loadBytes) (fun t => (t.x 3#5, t.pc, t.pending)) =
      some (0x44332211#32, 0x804#32, none) := by decide

theorem test_lwr_1 :
    after (start 0x98230001#32 [(1#5, 0x100#32), (3#5, 0xAABBCCDD#32)] loadBytes) (fun t => (t.x 3#5, t.pc, t.pending)) =
      some (0xAA7FFF01#32, 0x804#32, none) := by decide

theorem test_lwr_3 :
    after (start 0x98230003#32 [(1#5, 0x100#32), (3#5, 0xAABBCCDD#32)] loadBytes) (fun t => (t.x 3#5, t.pc, t.pending)) =
      some (0xAABBCC7F#32, 0x804#32, none) := by decide

/-! L2.5 -/

theorem test_sb :
    after (start 0xA0220000#32 [(1#5, 0x100#32), (2#5, 0xAABBCCDD#32)] storeBytes) (fun t => window t) =
      some [0xDD, 0xEE, 0xEE, 0xEE, 0xEE, 0xEE, 0xEE, 0xEE] := by decide

theorem test_sb_halt_zero_byte :
    after (start 0xA0023000#32 [(2#5, 0x100#32)]) (fun t => (t.haltSet, t.pc)) =
      some (false, 0x804#32) := by decide

theorem test_sh_misaligned :
    after (start 0xA4220001#32 [(1#5, 0x100#32), (2#5, 0xAABBCCDD#32)] storeBytes) (fun t => window t) =
      some [0xEE, 0xDD, 0xCC, 0xEE, 0xEE, 0xEE, 0xEE, 0xEE] := by decide

theorem test_sh_halt :
    after (start 0xA4023000#32 [(2#5, 0x100#32)]) (fun t => (t.haltSet, t.pc)) =
      some (true, 0x804#32) := by decide

theorem test_sw_misaligned :
    after (start 0xAC220003#32 [(1#5, 0x100#32), (2#5, 0xAABBCCDD#32)] storeBytes) (fun t => window t) =
      some [0xEE, 0xEE, 0xEE, 0xDD, 0xCC, 0xBB, 0xAA, 0xEE] := by decide

theorem test_sw_console :
    after (start 0xAC022000#32 [(2#5, 0x12345641#32)]) (fun t => t.bus[1]?) =
      some (some ⟨0x2000#32, .console [0x41#8] []⟩) := by decide

theorem test_swl_1 :
    after (start 0xA8220005#32 [(1#5, 0x100#32), (2#5, 0x11223344#32)] storeBytes) (fun t => window t) =
      some [0xEE, 0xEE, 0xEE, 0xEE, 0x22, 0x11, 0xEE, 0xEE] := by decide

theorem test_swl_3 :
    after (start 0xA8220007#32 [(1#5, 0x100#32), (2#5, 0x11223344#32)] storeBytes) (fun t => window t) =
      some [0xEE, 0xEE, 0xEE, 0xEE, 0x44, 0x33, 0x22, 0x11] := by decide

theorem test_swr_1 :
    after (start 0xB8220001#32 [(1#5, 0x100#32), (2#5, 0x11223344#32)] storeBytes) (fun t => window t) =
      some [0xEE, 0x44, 0x33, 0x22, 0xEE, 0xEE, 0xEE, 0xEE] := by decide

theorem test_swr_3 :
    after (start 0xB8220003#32 [(1#5, 0x100#32), (2#5, 0x11223344#32)] storeBytes) (fun t => window t) =
      some [0xEE, 0xEE, 0xEE, 0x44, 0xEE, 0xEE, 0xEE, 0xEE] := by decide

/-! L2.6 -/

theorem test_beq_not_taken :
    after (start 0x10220004#32 [(1#5, 0x3#32), (2#5, 0x4#32)]) (fun t => (t.pc, t.pending)) =
      some (0x804#32, some 0x808#32) := by decide

theorem test_beq_back :
    after (start 0x1000FFFE#32 []) (fun t => (t.pc, t.pending)) =
      some (0x804#32, some 0x7FC#32) := by decide

theorem test_bne :
    after (start 0x14220004#32 [(1#5, 0x3#32), (2#5, 0x4#32)]) (fun t => (t.pc, t.pending)) =
      some (0x804#32, some 0x814#32) := by decide

theorem test_blez :
    after (start 0x18200004#32 [(1#5, 0x80000000#32)]) (fun t => (t.pc, t.pending)) =
      some (0x804#32, some 0x814#32) := by decide

theorem test_blez_no :
    after (start 0x18200004#32 [(1#5, 0x1#32)]) (fun t => (t.pc, t.pending)) =
      some (0x804#32, some 0x808#32) := by decide

theorem test_bgtz :
    after (start 0x1C200004#32 [(1#5, 0x1#32)]) (fun t => (t.pc, t.pending)) =
      some (0x804#32, some 0x814#32) := by decide

theorem test_bgtz_no :
    after (start 0x1C200004#32 [(1#5, 0x0#32)]) (fun t => (t.pc, t.pending)) =
      some (0x804#32, some 0x808#32) := by decide

theorem test_bltz :
    after (start 0x4200004#32 [(1#5, 0x80000000#32)]) (fun t => (t.pc, t.pending)) =
      some (0x804#32, some 0x814#32) := by decide

theorem test_bltz_no :
    after (start 0x4200004#32 [(1#5, 0x0#32)]) (fun t => (t.pc, t.pending)) =
      some (0x804#32, some 0x808#32) := by decide

theorem test_bgez :
    after (start 0x4210004#32 [(1#5, 0x0#32)]) (fun t => (t.pc, t.pending)) =
      some (0x804#32, some 0x814#32) := by decide

theorem test_bgez_no :
    after (start 0x4210004#32 [(1#5, 0xFFFFFFFF#32)]) (fun t => (t.pc, t.pending)) =
      some (0x804#32, some 0x808#32) := by decide

theorem test_bltzal_links_anyway :
    after (start 0x4300004#32 [(1#5, 0x0#32), (31#5, 0x77#32)]) (fun t => (t.pc, t.pending, t.x 31#5)) =
      some (0x804#32, some 0x808#32, 0x808#32) := by decide

theorem test_bgezal :
    after (start 0x4310004#32 [(1#5, 0x0#32)]) (fun t => (t.pc, t.pending, t.x 31#5)) =
      some (0x804#32, some 0x814#32, 0x808#32) := by decide

theorem test_bgezal_conflict :
    after (start 0x7F10004#32 [(31#5, 0x0#32)]) (fun t => faultOf t) =
      some (some (.unpredictableOperands 0x07F10004#32 0x800#32)) := by decide

/-- L2.6: `J` at `A = 0x0FFFFFFC` under the one binding `[0x0FFFF000, +0x1000)`: the top bits come from `A`. -/
theorem test_j_region :
    after ({ State.reset with pc := 0x0FFFFFFC#32, bus := [⟨0x0FFFF000#32, .memory 0x1000#32⟩] }.withFetchWord 32 0x08000040)
      (fun t => (t.pc, t.pending)) = some (0x10000000#32, some 0x100#32) := by decide

/-- L2.6: `JAL` at `A = 0x00400000`. -/
theorem test_jal :
    after ({ State.reset with pc := 0x00400000#32, bus := [⟨0x00400000#32, .memory 0x1000#32⟩] }.withFetchWord 32 0x0C100040)
      (fun t => (t.pc, t.pending, t.x 31#5)) = some (0x00400004#32, some 0x00400100#32, 0x00400008#32) := by decide

theorem test_jr :
    after (start 0x3E00008#32 [(31#5, 0x2468#32)]) (fun t => (t.pc, t.pending)) =
      some (0x804#32, some 0x2468#32) := by decide

theorem test_jalr :
    after (start 0xA0F809#32 [(5#5, 0x3000#32)]) (fun t => (t.pc, t.pending, t.x 31#5)) =
      some (0x804#32, some 0x3000#32, 0x808#32) := by decide

theorem test_jalr_conflict :
    after (start 0xA02809#32 [(5#5, 0x3000#32)]) (fun t => faultOf t) =
      some (some (.unpredictableOperands 0x00A02809#32 0x800#32)) := by decide

/-- P6: a control transfer in a delay slot. -/
theorem test_j_in_slot :
    after ((start 0x08000010#32 []).setFlow 0x800#32 (some 0x0C#32)) faultOf =
      some (some (.branchInDelaySlot 0x08000010#32 0x800#32)) := by decide

/-- L2.6: a nop in a delay slot. -/
theorem test_nop_in_slot :
    after ((start 0x00000000#32 []).setFlow 0x800#32 (some 0x2000#32)) (fun t => (t.pc, t.pending)) =
      some (0x2000#32, none) := by decide

/-! L2.7: the illegal rows and words of no row. -/

/-- The step on a word is IllegalInstruction with that word and `pc`, and changes nothing else. -/
def illegalAt (word : Word) : Bool :=
  after (start word []) (fun t => t == (start word []).setStatus (.faulted (.illegalInstruction word 0x800#32))) == some true

theorem test_illegal_syscall_break : [0x0000000C#32, 0x0000000D#32, 0x0000000F#32, 0x00000001#32].all illegalAt = true := by
  decide

theorem test_illegal_cop :
    [0x40000000#32, 0x42000010#32, 0x44000000#32, 0x48000000#32, 0x4C000000#32].all illegalAt = true := by decide

theorem test_illegal_lwc : [0xC0000000#32, 0xC4000000#32, 0xC8000000#32, 0xCC000000#32].all illegalAt = true := by decide

theorem test_illegal_swc : [0xE0000000#32, 0xE4000000#32, 0xE8000000#32, 0xEC000000#32].all illegalAt = true := by decide

theorem test_illegal_no_row : [0xFC000000#32, 0x04020000#32].all illegalAt = true := by decide

/-! L2.8: fetch. -/

theorem test_fetch_misaligned :
    after { State.reset with pc := 0x802#32 } faultOf = some (some (.misalignedFetch 0x802#32)) := by decide

theorem test_fetch_unmapped :
    after { State.reset with pc := 0x4000#32 } faultOf =
      some (some (.invalidAddress 0x4000#32 .fetch .word 0x4000#32)) := by decide

theorem test_fetch_device_end :
    after { State.reset with pc := 0x800#32, bus := [⟨0x0#32, .memory 0x802#32⟩] } faultOf =
      some (some (.deviceRange 0x800#32 .fetch .word 0x800#32)) := by decide

theorem test_fetch_console_is_nop :
    after { State.reset with pc := 0x2000#32 } (fun t => (t.pc, faultOf t)) = some (0x2004#32, none) := by decide

theorem test_fetch_halt_set :
    after { State.reset with pc := 0x3000#32, bus := [⟨0x3000#32, .halt true⟩] } faultOf =
      some (some (.illegalInstruction 0x1#32 0x3000#32)) := by decide

/-- A state at the top of the address space. -/
def top : State := { State.reset with pc := 0xFFFFFFFC#32, bus := [⟨0xFFFFF000#32, .memory 0x1000#32⟩] }

theorem test_pc_overflow : after top faultOf = some (some (.pcOverflow 0xFFFFFFFC#32)) := by decide

theorem test_latch_at_top :
    after (top.setFlow 0xFFFFFFFC#32 (some 0xFFFFFFF4#32)) (fun t => (t.pc, faultOf t)) = some (0xFFFFFFF4#32, none) := by
  decide

/-! L2.9, L1.2 and the reset state. -/

/-- The standard launch with other bindings. -/
def launchWith (b : List Binding) : Launch := { Launch.standard with bindings := b }

/-- How construction ends: `none` when it is accepted. -/
def rejection (b : List Binding) : Option ConfigError :=
  match construct (launchWith b) with
  | .ok _ => none
  | .error e => some e

theorem test_construct_standard : construct Launch.standard = .ok State.reset := by decide

theorem test_construct_zero_length : rejection [⟨0x10#32, .memory 0#32⟩] = some .configInvalid := by decide

theorem test_construct_ends_at_top :
    rejection [⟨0xFFFFFF00#32, .memory 0x100#32⟩] = none ∧
    rejection [⟨0xFFFFFF00#32, .memory 0x101#32⟩] = some .configInvalid := by decide

theorem test_construct_overlap :
    rejection [⟨0#32, .memory 0x100#32⟩, ⟨0x10#32, .memory 0x10#32⟩, ⟨0x50#32, .memory 0x10#32⟩] = some .configOverlap ∧
    rejection [⟨0x100#32, .memory 0x10#32⟩, ⟨0#32, .memory 0x101#32⟩] = some .configOverlap ∧
    rejection [⟨0#32, .memory 0x100#32⟩, ⟨0x100#32, .memory 0x100#32⟩] = none := by decide

/-! The host's question about a row. -/

theorem test_table_word : decodeTableWord 32 0x2022FFFF = some (.addi 1#5 2#5 0xFFFF#16) := by decide

theorem test_fetch_word :
    after (State.reset.withFetchWord 32 0x2002FFFF) (fun t => t.x 2#5) = some 0xFFFFFFFF#32 := by decide

/-! ## Witnesses: for every obligation with hypotheses, states and operands that meet them all, at the ends of their ranges -/

/-- The last word at which an instruction advances by itself, registers given. -/
def last (regs : List (Reg × Word)) : State := applyLoader regs (top.setFlow 0xFFFFFFF8#32 none)

/-- The top word with a latch pending. -/
def latched : State := top.setFlow 0xFFFFFFFC#32 (some 0x100#32)

/-- The first memory device of the standard bus. -/
def ram : Port := ⟨0x0#32, .memory 0x1000#32⟩

/-- A state on the standard bus at 0x800, registers given. -/
def onBus (regs : List (Reg × Word)) : State := start 0x0#32 regs

/-- A state on a bus whose one memory device starts at 0x1002 and ends at 0x1806, registers given. -/
def onOddBus (regs : List (Reg × Word)) : State :=
  applyLoader regs { State.reset with pc := 0x1800#32, bus := [⟨0x1002#32, .memory 0x804#32⟩] }

theorem witness_OnlyDestinationRegisterChanges :
    ∃ i s t, State.Running s ∧ exec i s = .next t ∧ t.Running ∧ i.destination ≠ some 31#5 :=
  ⟨.addi 1#5 2#5 5#16, onBus [], _, by decide, rfl, by decide, by decide⟩

theorem witness_OnlyMulDivAndMovesChangeHiLo_others :
    ∃ i s t, State.Running s ∧ exec i s = .next t ∧ t.Running ∧ i.writesHiLo = false :=
  ⟨.mfhi 0#5 0#5 2#5 0#5, onBus [], _, by decide, rfl, by decide, by decide⟩

theorem witness_OnlyMulDivAndMovesChangeHiLo_mthi :
    ∃ i s t, State.Running s ∧ exec i s = .next t ∧ t.Running ∧ ∃ rs rt rd sh, i = .mthi rs rt rd sh :=
  ⟨.mthi 1#5 0#5 0#5 0#5, onBus [(1#5, 7#32)], _, by decide, rfl, by decide, _, _, _, _, rfl⟩

theorem witness_OnlyMulDivAndMovesChangeHiLo_mtlo :
    ∃ i s t, State.Running s ∧ exec i s = .next t ∧ t.Running ∧ ∃ rs rt rd sh, i = .mtlo rs rt rd sh :=
  ⟨.mtlo 1#5 0#5 0#5 0#5, onBus [(1#5, 7#32)], _, by decide, rfl, by decide, _, _, _, _, rfl⟩

theorem witness_OnlyStoresChangeMemoryAndDevices :
    ∃ i s t, State.Running s ∧ exec i s = .next t ∧ t.Running ∧ i.isStore = false :=
  ⟨.lw 0#5 2#5 0x2000#16, onBus [], _, by decide, rfl, by decide, by decide⟩

theorem witness_AluImmediateResults : (last []).Advances ∧ latched.Advances := by decide

theorem witness_RegisterArithmeticLogicResults : (last []).Advances ∧ latched.Advances := by decide

theorem witness_ConstantShiftResults : (last []).Advances ∧ latched.Advances := by decide

theorem witness_VariableShiftResults : (last []).Advances ∧ latched.Advances := by decide

theorem witness_MultiplyResults : (last []).Advances ∧ latched.Advances := by decide

theorem witness_AccumulatorMoveResults : (last []).Advances ∧ latched.Advances := by decide

/-- The sum 2^31 - 1 does not overflow; 2^31 and -2^31 - 1 do. -/
theorem witness_AddImmediateResult :
    let fits := trapping (last [(1#5, 0x7FFFFFFE#32)])
    let above := trapping (last [(1#5, 0x7FFFFFFF#32)])
    let below := trapping (last [(1#5, 0x80000000#32)])
    (fits.Advances ∧ ¬(fits.params.trapOnOverflow = true ∧ 2 ^ 31 - 1 < (fits.x 1#5).toInt + (0x1#16).toInt)) ∧
    (above.params.trapOnOverflow = true ∧ 2 ^ 31 - 1 < (above.x 1#5).toInt + (0x1#16).toInt) ∧
    (below.params.trapOnOverflow = true ∧ (below.x 1#5).toInt + (0xFFFF#16).toInt < -2 ^ 31) := by decide

/-- `add` and `sub` at both ends of the signed range. -/
theorem witness_AddSubResults :
    let fits := trapping (last [(1#5, 0x7FFFFFFE#32), (2#5, 1#32), (3#5, 0x80000001#32)])
    let above := trapping (last [(1#5, 0x7FFFFFFF#32), (2#5, 1#32), (3#5, 0x80000000#32)])
    (fits.Advances ∧ ¬(2 ^ 31 - 1 < (fits.x 1#5).toInt + (fits.x 2#5).toInt) ∧
      ¬((fits.x 1#5).toInt + (fits.x 2#5).toInt < -2 ^ 31)) ∧
    (¬((fits.x 3#5).toInt - (fits.x 2#5).toInt < -2 ^ 31) ∧ ¬(2 ^ 31 - 1 < (fits.x 3#5).toInt - (fits.x 2#5).toInt)) ∧
    (above.params.trapOnOverflow = true ∧ 2 ^ 31 - 1 < (above.x 1#5).toInt + (above.x 2#5).toInt) ∧
    (above.params.trapOnOverflow = true ∧ (above.x 3#5).toInt - (above.x 2#5).toInt < -2 ^ 31) := by decide

theorem witness_SignedDivideResult :
    let s := last [(1#5, 0x80000000#32), (2#5, 1#32), (3#5, 0xFFFFFFFF#32)]
    (s.Advances ∧ (s.x 2#5).toInt ≠ 0 ∧ ¬((s.x 1#5).toInt = -2 ^ 31 ∧ (s.x 2#5).toInt = -1)) ∧
    (s.x 0#5).toInt = 0 ∧
    ((s.x 1#5).toInt = -2 ^ 31 ∧ (s.x 3#5).toInt = -1) := by decide

theorem witness_UnsignedDivideResult :
    let s := last [(1#5, 0x80000000#32), (2#5, 0xFFFFFFFF#32)]
    (s.Advances ∧ (s.x 2#5).toNat ≠ 0) ∧ (s.x 0#5).toNat = 0 := by decide

/-- The last byte, half-word and word of the memory device. -/
theorem witness_LoadResultsFromMemory :
    (onBus []).Advances ∧ (onBus []).inMemory ((onBus []).x 0#5 + (0xFFF#16).signExtend 32) 1 ∧
    (onBus []).inMemory ((onBus []).x 0#5 + (0xFFE#16).signExtend 32) 2 ∧
    (onBus []).inMemory ((onBus []).x 0#5 + (0xFFC#16).signExtend 32) 4 :=
  ⟨by decide, ⟨ram, 0x1000#32, by decide, rfl, by decide⟩, ⟨ram, 0x1000#32, by decide, rfl, by decide⟩,
    ⟨ram, 0x1000#32, by decide, rfl, by decide⟩⟩

theorem witness_LoadResultsFromDevices :
    let s := onBus []
    s.Advances ∧ route s.bus (s.x 0#5 + (0x2001#16).signExtend 32) = some (⟨0x2000#32, .console [] []⟩, 1) ∧
    route s.bus (s.x 0#5 + (0x3000#16).signExtend 32) = some (⟨0x3000#32, .halt false⟩, 0) := by decide

/-- The first address past the memory device, and a word that runs past its end by one byte. -/
theorem witness_LoadStoreFaults :
    let s := onBus [(1#5, 0x1000#32)]
    route s.bus (s.x 1#5 + (0x0#16).signExtend 32) = none ∧
    route s.bus (s.x 1#5 + (0xFFFD#16).signExtend 32) = some (ram, 0xFFD) ∧
    (0x1000#32).toNat < 0xFFD + Width.word.bytes := by decide

theorem witness_StoreResultsInMemory :
    (onBus []).Advances ∧ (onBus []).mem.wf ∧
    (onBus []).inMemory ((onBus []).x 0#5 + (0xFFF#16).signExtend 32) 1 ∧
    (onBus []).inMemory ((onBus []).x 0#5 + (0xFFE#16).signExtend 32) 2 ∧
    (onBus []).inMemory ((onBus []).x 0#5 + (0xFFC#16).signExtend 32) 4 :=
  ⟨by decide, by decide, ⟨ram, 0x1000#32, by decide, rfl, by decide⟩, ⟨ram, 0x1000#32, by decide, rfl, by decide⟩,
    ⟨ram, 0x1000#32, by decide, rfl, by decide⟩⟩

theorem witness_StoresToConsole :
    let s := onBus []
    s.Advances ∧ s.bus = [ram] ++ ⟨0x2000#32, .console [] []⟩ :: [⟨0x3000#32, .halt false⟩] ∧
    (∀ p ∈ [ram], p.contains (s.x 0#5 + (0x2000#16).signExtend 32) = false) ∧
    (∀ p ∈ [ram], p.contains (s.x 0#5 + (0x2001#16).signExtend 32) = false) ∧
    (s.x 0#5 + (0x2000#16).signExtend 32).toNat = (0x2000#32).toNat ∧
    (s.x 0#5 + (0x2001#16).signExtend 32).toNat = (0x2000#32).toNat + 1 := by decide

/-- A word whose low byte is 0 and whose low half-word is not. -/
theorem witness_StoresToHalt :
    let s := onBus [(2#5, 0x100#32)]
    s.Advances ∧ s.bus = [ram, ⟨0x2000#32, .console [] []⟩] ++ ⟨0x3000#32, .halt false⟩ :: [] ∧
    s.x 0#5 + (0x3000#16).signExtend 32 = 0x3000#32 ∧
    (∀ p ∈ [ram, ⟨0x2000#32, .console [] []⟩], p.contains 0x3000#32 = false) ∧
    (s.x 2#5).toNat % 2 ^ 8 = 0 ∧ (s.x 2#5).toNat % 2 ^ 16 ≠ 0 := by decide

/-- Every byte of the memory device is in memory. -/
theorem onBus_inMemory {regs : List (Reg × Word)} {a : Word} (h : a.toNat < 0x1000) (hb : (onBus regs).bus = State.reset.bus) :
    (onBus regs).inMemory a 1 := by
  refine ⟨ram, 0x1000#32, ?_, rfl, ?_⟩
  · simp [hb, State.reset, route, Port.contains, Port.limit, Device.length, ram, h]
  · simp [ram]; omega

/-- LWL at the last byte (k = 3) and the first (k = 0), LWR at the same two. -/
theorem witness_UnalignedLoadResults :
    let s := onBus []
    s.Advances ∧
    (∀ j ≤ 3, s.inMemory ((s.x 0#5 + (0xFFF#16).signExtend 32) - BitVec.ofNat 32 j) 1) ∧
    (∀ j ≤ 0, s.inMemory ((s.x 0#5 + (0x000#16).signExtend 32) - BitVec.ofNat 32 j) 1) ∧
    (∀ j ≤ 0, s.inMemory ((s.x 0#5 + (0xFFF#16).signExtend 32) + BitVec.ofNat 32 j) 1) ∧
    (∀ j ≤ 3, s.inMemory ((s.x 0#5 + (0x000#16).signExtend 32) + BitVec.ofNat 32 j) 1) :=
  ⟨by decide, fun _ h => onBus_inMemory ((by decide : ∀ j ≤ 3, ((0#32 + (0xFFF#16).signExtend 32) - BitVec.ofNat 32 j).toNat < 0x1000) _ h) (by decide),
    fun _ h => onBus_inMemory ((by decide : ∀ j ≤ 0, ((0#32 + (0x000#16).signExtend 32) - BitVec.ofNat 32 j).toNat < 0x1000) _ h) (by decide),
    fun _ h => onBus_inMemory ((by decide : ∀ j ≤ 0, ((0#32 + (0xFFF#16).signExtend 32) + BitVec.ofNat 32 j).toNat < 0x1000) _ h) (by decide),
    fun _ h => onBus_inMemory ((by decide : ∀ j ≤ 3, ((0#32 + (0x000#16).signExtend 32) + BitVec.ofNat 32 j).toNat < 0x1000) _ h) (by decide)⟩

/-- The same addresses, for SWL and SWR. -/
theorem witness_UnalignedStoreResults :
    (onBus []).Advances ∧ (onBus []).mem.wf ∧
    (∀ j ≤ 3, (onBus []).inMemory (((onBus []).x 0#5 + (0xFFF#16).signExtend 32) - BitVec.ofNat 32 j) 1) ∧
    (∀ j ≤ 3, (onBus []).inMemory (((onBus []).x 0#5 + (0x000#16).signExtend 32) + BitVec.ofNat 32 j) 1) :=
  ⟨by decide, by decide, witness_UnalignedLoadResults.2.1, witness_UnalignedLoadResults.2.2.2.2⟩

/-- A console where an upward walk of two bytes reaches both its offsets. -/
def onConsole : State := { State.reset with pc := 0x800#32, bus := [⟨0x2002#32, .console [] []⟩] }

/-- The states of a walk of byte writes of 0x41. -/
def byteStores (s : State) (addr : Nat → Word) : Nat → State
  | 0 => s
  | j + 1 =>
    match busWrite (addr j) .byte 0x41#32 (byteStores s addr j) with
    | .ok t => t
    | .error _ => s

/-- LWL at 0x2001 (k = 1) on the standard console, LWR at 0x2002 (k = 2) on the other. -/
theorem witness_UnalignedLoadResults_devices :
    (∀ j ≤ 1, busRead .read ((onBus []).x 0#5 + (0x2001#16).signExtend 32 - BitVec.ofNat 32 j) .byte (onBus []) = .ok 0#32) ∧
    (onBus []).Advances ∧ (0x2001#32).toNat % 4 = 1 ∧
    (∀ j ≤ 1, busRead .read (onConsole.x 0#5 + (0x2002#16).signExtend 32 + BitVec.ofNat 32 j) .byte onConsole = .ok 0#32) ∧
    onConsole.Advances ∧ 3 - (0x2002#32).toNat % 4 = 1 := by decide

theorem witness_UnalignedStoreResults_devices :
    let s := onBus [(2#5, 0x41414141#32)]
    let u := applyLoader [(2#5, 0x41414141#32)] onConsole
    (∀ j ≤ 1, busWrite (0x2001#32 - BitVec.ofNat 32 j) .byte (((s.x 2#5).extractLsb' (8 * (3 - j)) 8).setWidth 32)
        (byteStores s (fun j => 0x2001#32 - BitVec.ofNat 32 j) j) =
      .ok (byteStores s (fun j => 0x2001#32 - BitVec.ofNat 32 j) (j + 1))) ∧
    (∀ j ≤ 1, busWrite (0x2002#32 + BitVec.ofNat 32 j) .byte (((u.x 2#5).extractLsb' (8 * j) 8).setWidth 32)
        (byteStores u (fun j => 0x2002#32 + BitVec.ofNat 32 j) j) =
      .ok (byteStores u (fun j => 0x2002#32 + BitVec.ofNat 32 j) (j + 1))) ∧
    s.Advances ∧ s.mem.wf ∧ u.Advances ∧ u.mem.wf := by decide

/-- Downward from 0x1003 the third byte is unmapped; upward from 0x1804 too. -/
theorem witness_UnalignedAccessFaults :
    let s := onOddBus [(1#5, 0x1003#32), (2#5, 0x1804#32)]
    let down (n : Nat) : Word := (s.x 1#5 + (0x0#16).signExtend 32) - BitVec.ofNat 32 n
    let up (n : Nat) : Word := (s.x 2#5 + (0x0#16).signExtend 32) + BitVec.ofNat 32 n
    (2 ≤ (down 0).toNat % 4 ∧ (∀ i < 2, route s.bus (down i) ≠ none) ∧ route s.bus (down 2) = none) ∧
    (2 ≤ 3 - (up 0).toNat % 4 ∧ (∀ i < 2, route s.bus (up i) ≠ none) ∧ route s.bus (up 2) = none) := by decide

/-- A misaligned word. -/
theorem witness_UnalignedStorePairIsWordStore :
    ∃ s t u : State, s.Inv ∧ s.inMemory (s.x 4#5) 4 ∧ s.Running ∧ exec (.swr 4#5 1#5 0#16) s = .next t ∧ t.Running ∧
      exec (.swl 4#5 1#5 3#16) t = .next u ∧ u.Running :=
  ⟨onBus [(1#5, 0x89ABCDEF#32), (4#5, 0x201#32)], _, _, by decide, ⟨ram, 0x1000#32, by decide, rfl, by decide⟩, by decide,
    rfl, by decide, rfl, by decide⟩

/-- The last word of the device. -/
theorem witness_UnalignedStorePairIsWordStore_end :
    ∃ s t u : State, s.Inv ∧ s.inMemory (s.x 4#5) 4 ∧ s.Running ∧ exec (.swr 4#5 1#5 0#16) s = .next t ∧ t.Running ∧
      exec (.swl 4#5 1#5 3#16) t = .next u ∧ u.Running :=
  ⟨onBus [(1#5, 0x89ABCDEF#32), (4#5, 0xFFC#32)], _, _, by decide, ⟨ram, 0x1000#32, by decide, rfl, by decide⟩, by decide,
    rfl, by decide, rfl, by decide⟩

theorem witness_UnalignedLoadPairIsWordLoad :
    ∃ s t u : State, s.Inv ∧ s.inMemory (s.x 4#5) 4 ∧ (2#5 : Reg) ≠ 4#5 ∧ (2#5 : Reg) ≠ 0#5 ∧ s.Running ∧
      exec (.lwr 4#5 2#5 0#16) s = .next t ∧ t.Running ∧ exec (.lwl 4#5 2#5 3#16) t = .next u ∧ u.Running :=
  ⟨start 0x0#32 [(4#5, 0x103#32)] loadBytes, _, _, by decide, ⟨ram, 0x1000#32, by decide, rfl, by decide⟩, by decide,
    by decide, by decide, rfl, by decide, rfl, by decide⟩

/-- Every condition true and false, at the values next to 0. -/
theorem witness_ConditionalBranchResults :
    let s := last [(1#5, 0xFFFFFFFF#32), (2#5, 1#32)]
    (s.pending = none ∧ s.pc ≠ 0xFFFFFFFC#32) ∧ s.x 1#5 = s.x 1#5 ∧ s.x 1#5 ≠ s.x 2#5 ∧
    ((s.x 0#5).toInt ≤ 0 ∧ ¬(s.x 2#5).toInt ≤ 0) ∧ (0 < (s.x 2#5).toInt ∧ ¬0 < (s.x 0#5).toInt) ∧
    ((s.x 1#5).toInt < 0 ∧ ¬(s.x 0#5).toInt < 0) ∧ (0 ≤ (s.x 0#5).toInt ∧ ¬0 ≤ (s.x 1#5).toInt) := by decide

theorem witness_LinkBranchResults :
    let s := last [(30#5, 0xFFFFFFFF#32)]
    s.pending = none ∧ s.pc ≠ 0xFFFFFFFC#32 ∧ (30#5 : Reg) ≠ 31#5 ∧ (0#5 : Reg) ≠ 31#5 ∧
    ((s.x 30#5).toInt < 0 ∧ ¬(s.x 0#5).toInt < 0) ∧ (0 ≤ (s.x 0#5).toInt ∧ ¬0 ≤ (s.x 30#5).toInt) := by decide

/-- JALR with `rd = rs = 0` and with `rd` and `rs` different. -/
theorem witness_JumpResults :
    (last []).pending = none ∧ (last []).pc ≠ 0xFFFFFFFC#32 ∧ ¬((0#5 : Reg) = 0#5 ∧ (0#5 : Reg) ≠ 0#5) ∧
    ¬((31#5 : Reg) = 5#5 ∧ (31#5 : Reg) ≠ 0#5) := by decide

theorem witness_ControlTransferInDelaySlotFaults :
    (Instr.j 0x10#26).isControlTransfer = true ∧ (Instr.bgezal 31#5 0#16).isControlTransfer = true ∧
    latched.pending ≠ none := by decide

theorem witness_LinkConflictsFault :
    (last []).pending = none ∧ (31#5 : Reg) = 31#5 ∧ (31#5 : Reg) ≠ 0#5 := by decide

theorem witness_ControlTransfersAloneLatch :
    ∃ i s t, State.Running s ∧ exec i s = .next t ∧ t.Running ∧ i.isControlTransfer = true :=
  ⟨.bne 0#5 0#5 4#16, last [], _, by decide, rfl, by decide, by decide⟩

theorem witness_ControlTransfersAloneLatch_others :
    ∃ i s t, State.Running s ∧ exec i s = .next t ∧ t.Running ∧ i.isControlTransfer = false :=
  ⟨.addi 1#5 2#5 5#16, latched, _, by decide, rfl, by decide, by decide⟩

theorem witness_DelaySlotReachesTarget :
    ∃ s t, State.pending s = some 0x100#32 ∧ step s = .next t ∧ t.Running := ⟨latched, _, by decide, rfl, by decide⟩

theorem witness_SequentialAdvance : ∃ s t, State.pending s = none ∧ step s = .next t ∧ t.Running :=
  ⟨last [], _, by decide, rfl, by decide⟩

theorem witness_OnlyJumpRegisterMisaligns :
    ∃ i s t, (∀ rs rt rd sh, i ≠ .jr rs rt rd sh ∧ i ≠ .jalr rs rt rd sh) ∧ (State.pc s).toNat % 4 = 0 ∧
      (∀ a, s.pending = some a → a.toNat % 4 = 0) ∧ s.Running ∧ exec i s = .next t ∧ t.Running :=
  ⟨.addi 1#5 2#5 5#16, latched, _, fun _ _ _ _ => ⟨nofun, nofun⟩, by decide,
    fun a h => by cases h; decide, by decide, rfl, by decide⟩

theorem witness_IllegalRowsRaise :
    (Instr.syscall 0#20).admitted = false ∧ (Instr.swc3 0x3FFFFFF#26).admitted = false := by decide

theorem witness_FetchAndDispatchFaults :
    (({ State.reset with pc := 0x1#32 } : State).Running ∧ (0x1#32).toNat % 4 ≠ 0) ∧
    (({ State.reset with pc := 0x1000#32 } : State).Running ∧ (0x1000#32).toNat % 4 = 0 ∧
      route State.reset.bus 0x1000#32 = none) ∧
    (({ State.reset with pc := 0x800#32, bus := [⟨0x0#32, .memory 0x803#32⟩] } : State).Running ∧
      route [⟨0x0#32, .memory 0x803#32⟩] 0x800#32 = some (⟨0x0#32, .memory 0x803#32⟩, 0x800) ∧
      (0x800#32).toNat % 4 = 0 ∧ (0x803#32).toNat < 0x800 + 4) ∧
    ((start 0x1#32 []).Running ∧ decodeWord 0x1#32 = .error (.reservedFunct 1#6)) := by decide

theorem witness_FetchAndDispatchFaults_word : fetch (start 0x1#32 []) = .ok 0x1#32 := by rfl

theorem witness_StepAnswersByStatus :
    State.reset.Running ∧ (State.reset.setStatus (.faulted (.pcOverflow 0#32))).status = .faulted (.pcOverflow 0#32) := by
  decide

theorem witness_FaultKeepsProgramCounter : ∃ s t f, step s = .next t ∧ State.status t = .faulted f :=
  ⟨top, _, _, rfl, rfl⟩

theorem witness_DispatchFaultsChangeOnlyStatus_1 :
    ∃ s t f, step s = .next t ∧ State.status t = .faulted f ∧ f.code = 1 := ⟨start 0xC#32 [], _, _, rfl, rfl, rfl⟩

theorem witness_DispatchFaultsChangeOnlyStatus_7 :
    ∃ s t f, step s = .next t ∧ State.status t = .faulted f ∧ f.code = 7 :=
  ⟨{ State.reset with pc := 0x802#32 }, _, _, rfl, rfl, rfl⟩

theorem witness_DispatchFaultsChangeOnlyStatus_8 :
    ∃ s t f, step s = .next t ∧ State.status t = .faulted f ∧ f.code = 8 :=
  ⟨(start 0x10000004#32 []).setFlow 0x800#32 (some 0#32), _, _, rfl, rfl, rfl⟩

theorem witness_DispatchFaultsChangeOnlyStatus_9 :
    ∃ s t f, step s = .next t ∧ State.status t = .faulted f ∧ f.code = 9 := ⟨start 0x07F10004#32 [], _, _, rfl, rfl, rfl⟩

theorem witness_DispatchFaultsChangeOnlyStatus_invalid :
    ∃ s t f, step s = .next t ∧ State.status t = .faulted f ∧ ∃ a n, f = .invalidAddress a .fetch n s.pc :=
  ⟨{ State.reset with pc := 0x4000#32 }, _, _, rfl, rfl, _, _, rfl⟩

theorem witness_DispatchFaultsChangeOnlyStatus_range :
    ∃ s t f, step s = .next t ∧ State.status t = .faulted f ∧ ∃ a n, f = .deviceRange a .fetch n s.pc :=
  ⟨{ State.reset with pc := 0x800#32, bus := [⟨0x0#32, .memory 0x802#32⟩] }, _, _, rfl, rfl, _, _, rfl⟩

theorem witness_PcOverflowExactlyAtTop :
    ∃ i s t, State.Running s ∧ exec i s = .next t ∧ s.pending = none ∧ s.pc = 0xFFFFFFFC#32 ∧
      t.status = .faulted (.pcOverflow s.pc) :=
  ⟨.sll 0#5 0#5 0#5 0#5, top, _, by decide, rfl, by decide, by decide, rfl⟩

theorem witness_EncodeOfDecode : ∃ w i, decodeWord w = .ok i := ⟨0xB8810000#32, _, rfl⟩

theorem witness_IgnoredFieldsChangeNothing : (last []).pending = none := by decide

theorem witness_StepRunsDecodedInstruction :
    let s := top
    s.Running ∧ s.pc.toNat % 4 = 0 ∧ s.inMemory s.pc 4 ∧
    decodeBytes ([s.mem.read (s.pc.toNat + 0), s.mem.read (s.pc.toNat + 1), s.mem.read (s.pc.toNat + 2),
      s.mem.read (s.pc.toNat + 3)] ++ [7#8]) = .ok (.sll 0#5 0#5 0#5 0#5, [7#8]) :=
  ⟨by decide, by decide, ⟨⟨0xFFFFF000#32, .memory 0x1000#32⟩, 0x1000#32, by decide, rfl, by decide⟩, by decide⟩

/-- The last address of the device, and the first past it. -/
theorem witness_RoutingIsCorrect :
    busWf State.reset.bus ∧ ram ∈ State.reset.bus ∧ ram.base.toNat ≤ (0xFFF#32).toNat ∧
    (0xFFF#32).toNat < ram.base.toNat + ram.device.length ∧ route State.reset.bus 0x1000#32 = none := by decide

theorem witness_MemoryRoundTripAndMixedWidth : Memory.wf loadBytes ∧ 3 < 4 ∧ 2 < 3 := by decide

theorem witness_CanonicalMemoryIsExtensional :
    ∃ m n : Memory, m.wf ∧ n.wf ∧ (∀ a, m.read a = n.read a) ∧ m ≠ [] :=
  ⟨loadBytes, loadBytes, by decide, by decide, fun _ => rfl, by decide⟩

theorem witness_ConfigurationIsFixed : ∃ s t, step s = .next t ∧ State.bus s ≠ [] :=
  ⟨start 0xAC022000#32 [(2#5, 0x41#32)], _, rfl, by decide⟩

/-- A halt device already set, stored to again. -/
theorem witness_HaltFlagStaysSet :
    ∃ (s t : State) (n : Nat) (base : Word), step s = .next t ∧ t.Running ∧ s.bus[n]? = some ⟨base, .halt true⟩ :=
  ⟨{ start 0xA0003000#32 [] with bus := [ram, ⟨0x3000#32, .halt true⟩] }, _, 1, 0x3000#32, rfl, by decide, by decide⟩

/-- A flush of a buffer that holds a byte. -/
theorem witness_ConsoleOutputOnlyGrows :
    ∃ (s t : State) (n : Nat) (base : Word) (buf out : List Byte), step s = .next t ∧ t.Running ∧
      s.bus[n]? = some ⟨base, .console buf out⟩ ∧ buf ≠ [] :=
  ⟨{ start 0xA0002001#32 [] with bus := [ram, ⟨0x2000#32, .console [5#8] [4#8]⟩] }, _, 1, 0x2000#32, [5#8], [4#8], rfl,
    by decide, by decide, by decide⟩

/-- A store of the word at the end of the device. -/
theorem witness_StoreIsSeenByFetch :
    ∃ s t : State, s.Inv ∧ (s.x 0#5 + (0xFFC#16).signExtend 32).toNat % 4 = 0 ∧
      s.inMemory (s.x 0#5 + (0xFFC#16).signExtend 32) 4 ∧ s.Running ∧
      exec (.sw 0#5 2#5 0xFFC#16) s = .next t ∧ t.Running :=
  ⟨onBus [(2#5, 0x20010005#32)], _, by decide, by decide, ⟨ram, 0x1000#32, by decide, rfl, by decide⟩, by decide, rfl,
    by decide⟩

theorem witness_StepKeepsInvariant : ∃ s t : State, s.Inv ∧ step s = .next t :=
  ⟨start 0xAC220003#32 [(1#5, 0x100#32), (2#5, 0xAABBCCDD#32)] storeBytes, _, by decide, rfl⟩

theorem witness_ConstructionHasInvariant : ∃ l s, construct l = .ok s ∧ l.bindings ≠ [] :=
  ⟨Launch.standard, State.reset, test_construct_standard, by decide⟩

/-- Overlap among valid bindings, and an invalid binding among disjoint ones. -/
theorem witness_ConstructionAcceptsExactlyDisjoint :
    let first (b : Binding) : Nat := b.base.toNat
    let last (b : Binding) : Nat := b.base.toNat + (freshDevice b.kind).length
    let valid (bs : List Binding) : Prop := ∀ b ∈ bs, first b < last b ∧ last b ≤ 2 ^ 32
    let disjoint (bs : List Binding) : Prop := bs.Pairwise (fun b c => last b ≤ first c ∨ last c ≤ first b)
    (valid [⟨0#32, .memory 0x100#32⟩, ⟨0xFF#32, .memory 0x100#32⟩] ∧
      ¬disjoint [⟨0#32, .memory 0x100#32⟩, ⟨0xFF#32, .memory 0x100#32⟩]) ∧
    (¬valid [⟨0xFFFFFF00#32, .memory 0x101#32⟩, ⟨0#32, .halt⟩] ∧
      disjoint [⟨0xFFFFFF00#32, .memory 0x101#32⟩, ⟨0#32, .halt⟩]) := by
  simp only [List.pairwise_cons]
  decide

/-- A launch with a loader register, a register outside the loader's set, and a byte. -/
theorem witness_ConstructedStateIsResetState :
    ∃ (l : Launch) (s : State), construct l = .ok s ∧ (l.loaderRegs.map Prod.fst).Nodup ∧
      (l.memInit.map Prod.fst).Nodup ∧ (28#5, 0x10#32) ∈ l.loaderRegs ∧ 29#5 ∉ l.loaderRegs.map Prod.fst ∧
      (0xFFF, 7#8) ∈ l.memInit ∧ s.bus.any (fun p => p.holdsByte 0xFFF) = true :=
  ⟨{ Launch.standard with loaderRegs := [(28#5, 0x10#32)], memInit := [(0xFFF, 7#8)] }, _, rfl, by decide, by decide,
    by decide, by decide, by decide, by decide⟩

/-- A faulted state, a halted one, and one that goes on. -/
theorem witness_RunLoopOrderAndEnds :
    (∃ s f, State.status s = .faulted f) ∧ (∃ s, State.Running s ∧ s.haltSet = true) ∧
    (∃ s t, State.Running s ∧ s.haltSet = false ∧ step s = .next t) ∧
    (∃ n s t, runLoop n s = .halted t) ∧ (∃ n s f t, runLoop n s = .faulted f t) :=
  ⟨⟨State.reset.setStatus (.faulted (.pcOverflow 0#32)), _, rfl⟩,
    ⟨{ State.reset with bus := [⟨0#32, .halt true⟩] }, by decide, by decide⟩,
    ⟨State.reset, _, by decide, by decide, rfl⟩,
    ⟨1, start 0xA4023000#32 [(2#5, 0x100#32)], _, rfl⟩, ⟨1, top, _, _, rfl⟩⟩

end Sys2Proof.Tests
end

section
/-! PROOFS. The statements about the machine's state (spec 10_state). -/

namespace Sys2Proof.Proofs

open Sys2Proof.Machine

/-- Settles O1: register 0 reads 0 in every state, in particular in the one after the write. -/
theorem registerZeroIsHardwired : Obligations.RegisterZeroIsHardwired := fun s v =>
  ⟨s.x_zero, s.setX_zero v, (s.setX 0#5 v).x_zero⟩

end Sys2Proof.Proofs
end

section
/-! PROOFS. The statements about memory and the bus (spec 20_memory). -/

namespace Sys2Proof.Proofs

open Sys2Proof.Machine

/-- `route` answers nothing exactly where no binding contains the address (20_memory R60, R61); no premise on the bus. -/
theorem route_eq_none_iff {bus : List Port} {a : Word} : route bus a = none ↔ ∀ p ∈ bus, ¬p.contains a = true := by
  induction bus with
  | nil => simp [route]
  | cons p ps ih =>
    rw [route, List.forall_mem_cons]
    split
    · next hc => simp [hc]
    · next hc => rw [ih, and_iff_right hc]

/-- Settles O48: an accepted bus has no overlaps, so the binding that contains an address is the one `route` answers; where
none contains it the scan ends without an answer. -/
theorem routingIsCorrect : Obligations.RoutingIsCorrect := by
  intro bus a hbus
  constructor
  · intro p hp hlo hhi
    exact route_of_contains (overlapFree_spec hbus.2).2 hp (Port.contains_iff.2 ⟨hlo, hhi⟩)
  · simp only [route_eq_none_iff, Port.contains_iff, Port.limit]

end Sys2Proof.Proofs
end

section
/-! PROOFS. The statements about arithmetic with an immediate (spec 40_alu_immediate), with the laws of `writeTrapping` and of
the operand helpers. -/

namespace Sys2Proof.Proofs

open Sys2Proof.Machine

/-- A sign-extended immediate keeps its signed value (00_scope R10). -/
@[simp] theorem toInt_signImm (imm : BitVec 16) : (signImm imm).toInt = imm.toInt :=
  BitVec.toInt_signExtend_of_le (by decide)

/-- `imm << 16` as a multiplication by 2^16 (R138). -/
theorem upperImm_eq_ofNat (imm : BitVec 16) : upperImm imm = BitVec.ofNat 32 (imm.toNat * 2 ^ 16) := by
  apply BitVec.eq_of_toNat_eq
  simp [upperImm, Nat.shiftLeft_eq]

/-- The written outcome of a signed comparison is 1 or 0 (R133). -/
theorem boolWord_signedLess (a b : Word) : boolWord (signedLess a b) = if a.toInt < b.toInt then 1#32 else 0#32 := by
  simp [boolWord, signedLess]

/-- The written outcome of an unsigned comparison is 1 or 0 (R134). -/
theorem boolWord_unsignedLess (a b : Word) :
    boolWord (unsignedLess a b) = if a.toNat < b.toNat then 1#32 else 0#32 := by
  simp [boolWord, unsignedLess]

/-- The range of R130 with its bounds as powers of 2. -/
theorem outsideSigned_iff {r : Int} : outsideSigned r = true ↔ r < -2 ^ 31 ∨ 2 ^ 31 - 1 < r := by
  simp [outsideSigned]

/-- `raise` takes its fault when the info names the address of the faulting instruction (60_exceptions R272). -/
theorem raises_raise {f : Fault} {s : State} (h : f.pc = s.pc) : Raises (raise f s) f := ⟨_, rfl, rfl, h.symm⟩

/-- R130: without the parameter or without an overflow the result is written. -/
theorem writeTrapping_advances {s : State} {b : Bool} (r : Reg) (v : Word) (ha : s.Advances)
    (h : ¬(s.params.trapOnOverflow = true ∧ b = true)) :
    writeTrapping b r v s = .next ((s.setX r v).setFlow s.nextPc none) := by
  rw [writeTrapping, if_neg (by simpa using h), writeResult_advances r v ha]

/-- R130: an overflow under the parameter raises ArithmeticOverflow, and the answered state has the old registers. -/
theorem writeTrapping_overflows {s : State} {b : Bool} (r : Reg) (v : Word) (ht : s.params.trapOnOverflow = true)
    (hb : b = true) :
    Raises (writeTrapping b r v s) (.arithmeticOverflow s.pc) ∧
      ∀ t, writeTrapping b r v s = .next t → ∀ q, t.x q = s.x q := by
  have hraise : writeTrapping b r v s = raise (.arithmeticOverflow s.pc) s := by simp [writeTrapping, ht, hb]
  rw [hraise]
  refine ⟨raises_raise rfl, fun t he q => ?_⟩
  cases he
  rfl

/-- R131: ADDI overflows exactly when the exact sum of `x[rs]` and the immediate leaves the signed range. -/
theorem addOverflows_signImm_iff {a : Word} {imm : BitVec 16} :
    addOverflows a (signImm imm) = true ↔ a.toInt + imm.toInt < -2 ^ 31 ∨ 2 ^ 31 - 1 < a.toInt + imm.toInt := by
  rw [addOverflows, outsideSigned_iff, toInt_signImm]

/-- Settles O7: ADDI ends in `writeTrapping`, whose condition is the overflow of the exact sum. -/
theorem addImmediateResult : Obligations.AddImmediateResult := by
  intro rs rt imm s sum overflow
  refine ⟨rfl, fun ha hno => ?_, fun ht ho => ?_⟩
  · exact writeTrapping_advances rt _ ha (by rwa [addOverflows_signImm_iff])
  · exact writeTrapping_overflows rt _ ht (addOverflows_signImm_iff.2 ho)

/-- Settles O6: each of the seven ends in `writeResult`, which in a state that advances writes the register and moves on; for
the compares and LUI the written value is then put in the rule's form. -/
theorem aluImmediateResults : Obligations.AluImmediateResults := by
  intro rs rt imm s ha done
  have hwrite (v : Word) : writeResult rt v s = done v := writeResult_advances rt v ha
  refine ⟨⟨rfl, hwrite _⟩, ⟨rfl, (hwrite _).trans ?slti⟩, ⟨rfl, (hwrite _).trans ?sltiu⟩, ⟨rfl, hwrite _⟩,
    ⟨rfl, hwrite _⟩, ⟨rfl, hwrite _⟩, ⟨rfl, (hwrite _).trans ?lui⟩⟩
  case slti => rw [boolWord_signedLess, toInt_signImm]
  case sltiu => rw [boolWord_unsignedLess, signImm]
  case lui => rw [upperImm_eq_ofNat]

end Sys2Proof.Proofs
end

section
/-! PROOFS. The statements about register arithmetic, logic, compares and shifts (spec 41_alu_register), with the shifts of the
model in the arithmetic form of the rules. -/

namespace Sys2Proof.Proofs

open Sys2Proof.Machine

/-- R150: ADD overflows exactly when the exact sum leaves the signed range. -/
theorem addOverflows_iff {a b : Word} :
    addOverflows a b = true ↔ a.toInt + b.toInt < -2 ^ 31 ∨ 2 ^ 31 - 1 < a.toInt + b.toInt := by
  rw [addOverflows, outsideSigned_iff]

/-- R152: SUB overflows exactly when the exact difference leaves the signed range. -/
theorem subOverflows_iff {a b : Word} :
    subOverflows a b = true ↔ a.toInt - b.toInt < -2 ^ 31 ∨ 2 ^ 31 - 1 < a.toInt - b.toInt := by
  rw [subOverflows, outsideSigned_iff]

/-- The word difference is the exact difference of the unsigned values modulo 2^32 (R153). -/
theorem sub_eq_ofInt_toNat (a b : Word) : a - b = BitVec.ofInt 32 (a.toNat - b.toNat) := by
  rw [Int.sub_eq_add_neg, BitVec.ofInt_add, BitVec.ofInt_neg, BitVec.sub_eq_add_neg]
  simp

/-- A left shift multiplies modulo 2^32 (R162). -/
theorem shiftLeft_eq_ofNat_mul (v : Word) (n : Nat) : v <<< n = BitVec.ofNat 32 (v.toNat * 2 ^ n) := by
  apply BitVec.eq_of_toNat_eq
  rw [BitVec.toNat_shiftLeft, BitVec.toNat_ofNat, Nat.shiftLeft_eq]

/-- A logical right shift divides the unsigned value (R163). -/
theorem ushiftRight_eq_ofNat_div (v : Word) (n : Nat) : v >>> n = BitVec.ofNat 32 (v.toNat / 2 ^ n) := by
  rw [← Nat.shiftRight_eq_div_pow, ← BitVec.toNat_ushiftRight, BitVec.ofNat_toNat, BitVec.setWidth_eq]

/-- An arithmetic right shift divides the signed value, rounding down (R164). -/
theorem sshiftRight_eq_ofInt_div (v : Word) (n : Nat) : v.sshiftRight n = BitVec.ofInt 32 (v.toInt / 2 ^ n) := by
  rw [BitVec.sshiftRight, Int.shiftRight_eq_div_pow, Nat.cast_pow, Nat.cast_ofNat]

/-- Only the low 5 bits of `x[rs]` count: the amount is the value modulo 32 (R165). -/
theorem shiftAmount_eq_mod (v : Word) : shiftAmount v = v.toNat % 32 := by
  simp [shiftAmount]

/-- Settles O8: ADD and SUB end in `writeTrapping`, whose condition is the overflow of the exact result. -/
theorem addSubResults : Obligations.AddSubResults := by
  intro rs rt rd sh s out addOut subOut
  refine ⟨⟨rfl, rfl⟩, fun ha hno => ?_, fun ha hno => ?_, fun ht ho => ?_, fun ht ho => ?_⟩
  · exact writeTrapping_advances rd _ ha (by rwa [addOverflows_iff])
  · exact writeTrapping_advances rd _ ha (by rwa [subOverflows_iff])
  · exact writeTrapping_overflows rd _ ht (addOverflows_iff.2 ho)
  · exact writeTrapping_overflows rd _ ht (subOverflows_iff.2 ho)

/-- Settles O9: each of the eight ends in `writeResult`; the sum, the difference, NOR and the compares are then put in the
rule's form. -/
theorem registerArithmeticLogicResults : Obligations.RegisterArithmeticLogicResults := by
  intro rs rt rd sh s ha done word
  have hwrite (v : Word) : writeResult rd v s = done v := writeResult_advances rd v ha
  refine ⟨⟨rfl, (hwrite _).trans ?addu⟩, ⟨rfl, (hwrite _).trans ?subu⟩, ⟨rfl, hwrite _⟩, ⟨rfl, hwrite _⟩, ⟨rfl, hwrite _⟩,
    ⟨rfl, (hwrite _).trans ?nor⟩, ⟨rfl, (hwrite _).trans ?slt⟩, ⟨rfl, (hwrite _).trans ?sltu⟩⟩
  case addu => rw [BitVec.add_def]
  case subu => rw [sub_eq_ofInt_toNat]
  case nor => rw [BitVec.not_or]
  case slt => rw [boolWord_signedLess]
  case sltu => rw [boolWord_unsignedLess]

/-- Settles O10: each of the three ends in `writeResult`, the shifted value then in the rule's form. -/
theorem constantShiftResults : Obligations.ConstantShiftResults := by
  intro rs rt rd sh s ha done word
  have hwrite (v : Word) : writeResult rd v s = done v := writeResult_advances rd v ha
  refine ⟨⟨rfl, rfl, (hwrite _).trans ?sll⟩, ⟨rfl, (hwrite _).trans ?srl⟩, ⟨rfl, (hwrite _).trans ?sra⟩⟩
  case sll => rw [shiftLeft_eq_ofNat_mul]
  case srl => rw [ushiftRight_eq_ofNat_div]
  case sra => rw [sshiftRight_eq_ofInt_div]

/-- Settles O11: the shifts of O10 by the amount `x[rs]` modulo 32. -/
theorem variableShiftResults : Obligations.VariableShiftResults := by
  intro rs rt rd sh s ha done word amount
  have hwrite (v : Word) : writeResult rd v s = done v := writeResult_advances rd v ha
  have hamount : shiftAmount (s.x rs) = amount := shiftAmount_eq_mod _
  refine ⟨⟨rfl, (hwrite _).trans ?sllv⟩, ⟨rfl, (hwrite _).trans ?srlv⟩, ⟨rfl, (hwrite _).trans ?srav⟩⟩
  case sllv => rw [hamount, shiftLeft_eq_ofNat_mul]
  case srlv => rw [hamount, ushiftRight_eq_ofNat_div]
  case srav => rw [hamount, sshiftRight_eq_ofInt_div]

end Sys2Proof.Proofs
end

section
/-! PROOFS. The statements about multiply, divide and the accumulator moves (spec 42_muldiv), with the values the model writes to
`hi` and `lo` in the form of the rules. -/

namespace Sys2Proof.Proofs

open Sys2Proof.Machine

/-- A write of `hi` and `lo` where the step advances: the two new values, the next `pc` and no latch (10_state R26, R30). -/
theorem writeHiLo_advances {s : State} (h l : Word) (ha : s.Advances) :
    writeHiLo h l s = .next (((s.setHi h).setLo l).setFlow s.nextPc none) :=
  complete_advances none (s := (s.setHi h).setLo l) ha

/-- R180: 64 bits hold every signed product of two words, also 2^62, the square of the least word. -/
theorem toInt_ofInt_mul (a b : Word) : (BitVec.ofInt 64 (a.toInt * b.toInt)).toInt = a.toInt * b.toInt :=
  BitVec.toInt_ofInt_eq_self (by decide)
    ((by decide : (-2 ^ (64 - 1) : Int) ≤ -2 ^ (32 * 2 - 2)).trans BitVec.le_toInt_mul_toInt)
    (BitVec.toInt_mul_toInt_le.trans_lt (by decide))

/-- R181: 64 bits hold every unsigned product of two words. -/
theorem toNat_ofNat_mul (a b : Word) : (BitVec.ofNat 64 (a.toNat * b.toNat)).toNat = a.toNat * b.toNat := by
  rw [BitVec.toNat_ofNat, Nat.mod_eq_of_lt BitVec.toNat_mul_toNat_lt]

/-- The quotient the model writes is the library's signed quotient (R182). -/
theorem ofInt_divQuotient (a b : Word) : BitVec.ofInt 32 (divQuotient a b) = a.sdiv b := by
  apply BitVec.eq_of_toInt_eq
  rw [BitVec.toInt_ofInt, divQuotient, BitVec.toInt_sdiv]

/-- The remainder the model writes is the library's signed remainder (R182). -/
theorem ofInt_divRemainder (a b : Word) : BitVec.ofInt 32 (divRemainder a b) = a.srem b := by
  rw [divRemainder, divQuotient, Int.mul_comm, ← Int.tmod_def, ← BitVec.toInt_srem, BitVec.ofInt_toInt]

/-- The word with signed value -2^31, as R182's test for overflow writes it. -/
theorem eq_minWord_iff {a : Word} : a = 0x80000000#32 ↔ a.toInt = -2 ^ 31 := BitVec.toInt_inj.symm

/-- The word with signed value -1, as R182's test for overflow writes it. -/
theorem eq_negOneWord_iff {a : Word} : a = 0xFFFFFFFF#32 ↔ a.toInt = -1 := BitVec.toInt_inj.symm

/-- The word with signed value 0. -/
theorem eq_zeroWord_iff_toInt {a : Word} : a = 0#32 ↔ a.toInt = 0 := BitVec.toInt_inj.symm

/-- The word with unsigned value 0. -/
theorem eq_zeroWord_iff_toNat {a : Word} : a = 0#32 ↔ a.toNat = 0 := BitVec.toNat_inj.symm

/-- R182: a divisor 0 raises DivideByZero. -/
theorem execDiv_zero {rs rt : Reg} {s : State} (h : (s.x rt).toInt = 0) :
    execDiv rs rt s = raise (.divideByZero s.pc) s := if_pos (eq_zeroWord_iff_toInt.2 h)

/-- R182: -2^31 by -1 raises DivideOverflow. -/
theorem execDiv_overflow {rs rt : Reg} {s : State} (ha : (s.x rs).toInt = -2 ^ 31) (hb : (s.x rt).toInt = -1) :
    execDiv rs rt s = raise (.divideOverflow s.pc) s := by
  have hne : (s.x rt).toInt ≠ 0 := by omega
  rw [execDiv, if_neg (eq_zeroWord_iff_toInt.not.2 hne), if_pos ⟨eq_minWord_iff.2 ha, eq_negOneWord_iff.2 hb⟩]

/-- R182: in every other case `lo` takes the signed quotient and `hi` the signed remainder. -/
theorem execDiv_divides {rs rt : Reg} {s : State} (hz : (s.x rt).toInt ≠ 0)
    (ho : ¬((s.x rs).toInt = -2 ^ 31 ∧ (s.x rt).toInt = -1)) :
    execDiv rs rt s = writeHiLo ((s.x rs).srem (s.x rt)) ((s.x rs).sdiv (s.x rt)) s := by
  rw [execDiv, if_neg (eq_zeroWord_iff_toInt.not.2 hz), if_neg (by rwa [eq_minWord_iff, eq_negOneWord_iff]),
    ofInt_divRemainder, ofInt_divQuotient]

/-- Outside the overflow the signed quotient is the exact one, truncated toward zero (R182). -/
theorem toInt_sdiv_eq_tdiv {a b : Word} (ho : ¬(a.toInt = -2 ^ 31 ∧ b.toInt = -1)) :
    (a.sdiv b).toInt = a.toInt.tdiv b.toInt := by
  rw [← eq_minWord_iff, ← eq_negOneWord_iff, not_and_or] at ho
  exact BitVec.toInt_sdiv_of_ne_or_ne a b ho

/-- R183: a divisor 0 raises DivideByZero. -/
theorem execDivu_zero {rs rt : Reg} {s : State} (h : (s.x rt).toNat = 0) :
    execDivu rs rt s = raise (.divideByZero s.pc) s := if_pos (eq_zeroWord_iff_toNat.2 h)

/-- R183: in every other case `lo` takes the unsigned quotient and `hi` the unsigned remainder. -/
theorem execDivu_divides {rs rt : Reg} {s : State} (h : (s.x rt).toNat ≠ 0) :
    execDivu rs rt s = writeHiLo (s.x rs % s.x rt) (s.x rs / s.x rt) s := by
  rw [execDivu, if_neg (eq_zeroWord_iff_toNat.not.2 h), ← BitVec.toNat_umod, ← BitVec.toNat_udiv, BitVec.ofNat_toNat,
    BitVec.ofNat_toNat, BitVec.setWidth_eq, BitVec.setWidth_eq]

/-- A meaning that ends in `raise` takes its fault (60_exceptions R272) and writes neither `hi` nor `lo` (R182, R183). -/
theorem raises_and_keeps_hiLo {ans : Answer} {f : Fault} {s : State} (h : ans = raise f s) (hpc : f.pc = s.pc) :
    Raises ans f ∧ ∀ t, ans = .next t → t.hi = s.hi ∧ t.lo = s.lo := by
  subst h
  refine ⟨raises_raise hpc, fun t ht => ?_⟩
  cases ht
  exact ⟨rfl, rfl⟩

/-- Settles O12: MULT and MULTU write the halves of a 64-bit product that is exact. -/
theorem multiplyResults : Obligations.MultiplyResults := by
  intro rs rt rd sh s ha
  refine ⟨⟨rfl, rfl⟩, ⟨_, _, writeHiLo_advances _ _ ha, ?mult⟩, ⟨_, _, writeHiLo_advances _ _ ha, ?multu⟩⟩
  case mult => rw [BitVec.extractLsb'_append_extractLsb' (w := 32) (len := 32), toInt_ofInt_mul]
  case multu => rw [BitVec.extractLsb'_append_extractLsb' (w := 32) (len := 32), toNat_ofNat_mul]

/-- Settles O13: the three branches of DIV; where it divides, the quotient and the remainder are the library's, whose division
law is the identity of R182. -/
theorem signedDivideResult : Obligations.SignedDivideResult := by
  intro rs rt rd sh s a b
  have hzero (hz : b = 0) := raises_and_keeps_hiLo (execDiv_zero (rs := rs) hz) rfl
  have hover (ha : a = -2 ^ 31) (hb : b = -1) := raises_and_keeps_hiLo (execDiv_overflow ha hb) rfl
  refine ⟨rfl, fun hadv hz ho => ?divides, fun hz => (hzero hz).1, fun ha hb => (hover ha hb).1, ?keeps⟩
  case divides =>
    have hq : ((s.x rs).sdiv (s.x rt)).toInt = a.tdiv b := toInt_sdiv_eq_tdiv ho
    refine ⟨_, _, (execDiv_divides hz ho).trans (writeHiLo_advances _ _ hadv), hq, ?_⟩
    rw [hq, BitVec.toInt_srem, Int.tdiv_mul_add_tmod]
  case keeps =>
    rintro (hz | ⟨ha, hb⟩)
    · exact (hzero hz).2
    · exact (hover ha hb).2

/-- Settles O14: the two branches of DIVU; where it divides, the quotient and the remainder are the library's. -/
theorem unsignedDivideResult : Obligations.UnsignedDivideResult := by
  intro rs rt rd sh s a b
  refine ⟨rfl, fun hadv hz => ?divides, fun hz => raises_and_keeps_hiLo (execDivu_zero hz) rfl⟩
  refine ⟨_, _, (execDivu_divides hz).trans (writeHiLo_advances _ _ hadv), ?identity, ?bound⟩
  case identity => rw [BitVec.toNat_udiv, BitVec.toNat_umod, Nat.div_add_mod']
  case bound => exact BitVec.toNat_umod ▸ Nat.mod_lt a (Nat.pos_of_ne_zero hz)

/-- Settles O15: MFHI and MFLO end in `writeResult`, MTHI and MTLO end their step after the one write. -/
theorem accumulatorMoveResults : Obligations.AccumulatorMoveResults := by
  intro rs rt rd sh s ha word
  refine ⟨⟨rfl, writeResult_advances rd _ ha⟩, ⟨rfl, ?mthi⟩, ⟨rfl, writeResult_advances rd _ ha⟩, ⟨rfl, ?mtlo⟩⟩
  case mthi => exact complete_advances none (s := s.setHi (s.x rs)) ha
  case mtlo => exact complete_advances none (s := s.setLo (s.x rs)) ha

end Sys2Proof.Proofs
end

section
/-! PROOFS. The statements about jumps, control transfers in a delay slot and link conflicts (spec 44_control), with the laws of a
transfer that latches its target and of the jump target. -/

namespace Sys2Proof.Proofs

open Sys2Proof.Machine

/-- Outside a delay slot and below the top word a step goes on at the next word and stores its latch (10_state R30). -/
theorem complete_sequential {s : State} (next : Option Word) (hp : s.pending = none) (hpc : s.pc ≠ 0xFFFFFFFC#32) :
    complete next s = .next (s.setFlow (s.pc + 4#32) next) := by
  rw [complete_advances next fun _ => hpc, State.nextPc, hp]

/-- R230: outside a delay slot and below the top word, a transfer whose body only latches `t`. -/
theorem transfer_latches {s : State} {w : Word} {body : State → Answer} {t : Word} (hp : s.pending = none)
    (hpc : s.pc ≠ 0xFFFFFFFC#32) (hbody : body s = complete (some t) s) :
    transfer w body s = .next (s.setFlow (s.pc + 4#32) (some t)) := by
  rw [transfer_none hp, hbody, complete_sequential _ hp hpc]

/-- R230, R233: outside a delay slot and below the top word, a transfer whose body writes the link to `x[r]` and latches `t`. -/
theorem transfer_links {s : State} {w : Word} {body : State → Answer} {r : Reg} {t : Word} (hp : s.pending = none)
    (hpc : s.pc ≠ 0xFFFFFFFC#32) (hbody : body s = complete (some t) (s.setX r (afterSlot s.pc))) :
    transfer w body s = .next ((s.setX r (s.pc + 8#32)).setFlow (s.pc + 4#32) (some t)) := by
  rw [transfer_none hp, hbody, complete_sequential _ (by rwa [State.setX_pending]) (by rwa [State.setX_pc]),
    State.setX_pc, afterSlot]

/-- The mask of R236 clears the low 28 bits and keeps the 4 above them. -/
theorem and_regionMask (a : Word) : a &&& 0xF0000000#32 = a >>> 28 <<< 28 := by
  ext i hi
  interval_cases i <;> simp

/-- R236: the region and the 28-bit target of a jump have no bit in common. -/
theorem region_and_target (a : Word) (target : BitVec 26) : (a <<< 28) &&& (target.setWidth 32 <<< 2) = 0#32 := by
  ext i hi
  by_cases h : i < 28
  · simp [h]
  · simp [BitVec.getLsbD_of_ge target (i - 2) (by omega)]

/-- R236 in arithmetic: the start of the 256 MB region of the jump plus 4 times the target field. -/
theorem jumpTarget_eq_ofNat (pc : Word) (target : BitVec 26) :
    jumpTarget pc target = BitVec.ofNat 32 (pc.toNat / 2 ^ 28 * 2 ^ 28 + target.toNat * 4) := by
  have hregion : pc >>> 28 <<< 28 = BitVec.ofNat 32 (pc.toNat / 2 ^ 28 * 2 ^ 28) := by
    rw [shiftLeft_eq_ofNat_mul, BitVec.toNat_ushiftRight, Nat.shiftRight_eq_div_pow]
  have hoffset : target.setWidth 32 <<< 2 = BitVec.ofNat 32 (target.toNat * 4) := by
    rw [shiftLeft_eq_ofNat_mul, BitVec.toNat_setWidth_of_le (by decide)]
    rfl
  rw [jumpTarget, and_regionMask, ← BitVec.add_eq_or_of_and_eq_zero _ _ (region_and_target _ _), hregion, hoffset,
    BitVec.ofNat_add]

/-- R232: a branch with link in a delay slot raises BranchInDelaySlot, also on a link conflict. -/
theorem branchLink_inDelaySlot {s : State} (w : Word) (rs : Reg) (taken : Bool) (imm : BitVec 16) (hp : s.pending ≠ none) :
    branchLink w rs taken imm s = raise (.branchInDelaySlot w s.pc) s :=
  transfer_some hp

/-- R234: a branch with link on `rs = 31` raises UnpredictableOperands, taken or not. -/
theorem branchLink_conflict {s : State} (w : Word) (taken : Bool) (imm : BitVec 16) (hp : s.pending = none) :
    branchLink w 31#5 taken imm s = raise (.unpredictableOperands w s.pc) s :=
  (transfer_none hp).trans (if_pos rfl)

/-- R234: JALR with `rd = rs`, not register 0, raises UnpredictableOperands. -/
theorem execJalr_conflict {rs rd : Reg} {s : State} (rt : Reg) (sh : BitVec 5) (hp : s.pending = none) (h : rd = rs)
    (h0 : rd ≠ 0#5) : execJalr rs rt rd sh s = raise (.unpredictableOperands (encode (.jalr rs rt rd sh)) s.pc) s :=
  (transfer_none hp).trans (if_pos ⟨h, h0⟩)

/-- Settles O29: J and JR end in `transfer_latches`, JAL and JALR in `transfer_links`; the target of J and JAL is then put in
the rule's arithmetic form. -/
theorem jumpResults : Obligations.JumpResults := by
  intro rs rt rd sh target s hp hpc jump
  have hjump : jumpTarget s.pc target = jump := jumpTarget_eq_ofNat s.pc target
  rw [← hjump]
  refine ⟨?j, ?jal, ?jr, fun hfree => ?jalr⟩
  case j => rw [exec]; exact transfer_latches hp hpc rfl
  case jal => rw [exec]; exact transfer_links hp hpc rfl
  case jr => rw [exec]; exact transfer_latches hp hpc rfl
  case jalr => rw [exec]; exact transfer_links hp hpc (if_neg hfree)

/-- Settles O30: the meaning of each of the 12 control transfers is a `transfer`, which raises in a delay slot before its body
runs; no other instruction meets the premise. -/
theorem controlTransferInDelaySlotFaults : Obligations.ControlTransferInDelaySlotFaults := by
  intro i s hi hp
  cases i
  case beq | bne | blez | bgtz | bltz | bgez | j | jal | jr | jalr => rw [exec]; exact transfer_some hp
  case bltzal | bgezal => exact branchLink_inDelaySlot _ _ _ _ hp
  all_goals cases hi

/-- Settles O31: outside a delay slot the three handlers run their bodies, whose first check is the conflict. -/
theorem linkConflictsFault : Obligations.LinkConflictsFault := by
  intro rs rt rd sh imm s hp faults
  refine ⟨fun h h0 => ?jalr, ?bltzal, ?bgezal⟩
  case jalr => exact execJalr_conflict rt sh hp h h0
  case bltzal => exact branchLink_conflict _ _ imm hp
  case bgezal => exact branchLink_conflict _ _ imm hp

end Sys2Proof.Proofs
end

section
/-! PROOFS. The statement about the system, coprocessor and privileged encodings (spec 45_system). -/

namespace Sys2Proof.Proofs

open Sys2Proof.Machine

/-- R260 to R262: the meaning of each of the 14 illegal rows is `raiseIllegal` of that row; any other instruction is admitted. -/
theorem exec_of_not_admitted {i : Instr} (s : State) (hi : i.admitted = false) : exec i s = raiseIllegal i s := by
  cases i
  case syscall | brk => rfl
  case cop0 | cop1 | cop2 | cop3 => rfl
  case lwc0 | lwc1 | lwc2 | lwc3 => rfl
  case swc0 | swc1 | swc2 | swc3 => rfl
  all_goals cases hi

/-- `raiseIllegal` changes the status alone, to a fault that records the raw word and `pc` (60_exceptions R272, R273). -/
theorem raiseIllegal_eq (i : Instr) (s : State) :
    raiseIllegal i s = .next (s.setStatus (.faulted (.illegalInstruction (encode i) s.pc))) := by
  rw [raiseIllegal, raise_eq]

/-- Settles O36: the meaning of an illegal row is its `raiseIllegal`; the 14 encodings are `packCode` (SYSCALL, BREAK) and
`packJ` (the coprocessor rows) written out. -/
theorem illegalRowsRaise : Obligations.IllegalRowsRaise := by
  constructor
  · intro i s hi
    rw [exec_of_not_admitted s hi, raiseIllegal_eq]
  · intro code rest illegal
    refine ⟨?syscall, ?brk, ?cop0, ?cop1, ?cop2, ?cop3, ?lwc0, ?lwc1, ?lwc2, ?lwc3, ?swc0, ?swc1, ?swc2, ?swc3⟩
    all_goals exact ⟨rfl, rfl⟩

end Sys2Proof.Proofs
end

section
/-! PROOFS. The statements about the decoder and the encoder (spec 30_encoding): the two round trips, and the words the three
maps accept. -/

namespace Sys2Proof.Proofs

open Sys2Proof.Machine

/-- R105: opcode 0 selects the SPECIAL map. -/
theorem decodeWord_special {w : Word} (h : fieldOp w = 0x00#6) : decodeWord w = decodeSpecial w := by
  simp [decodeWord, h]

/-- R105: opcode 1 selects the REGIMM map. -/
theorem decodeWord_regimm {w : Word} (h : fieldOp w = 0x01#6) : decodeWord w = decodeRegimm w := by
  simp [decodeWord, h]

/-- Settles O43: the selecting fields of a packed word are those of its row, so its map is read at the row's cell, and the
fields that cell answers are the ones packed. -/
theorem decodeOfEncode : Obligations.DecodeOfEncode := by
  intro i
  cases i
  case add | addu | sub | subu | and | or | xor | nor | slt | sltu | sll | srl | sra | sllv | srlv | srav | mult | multu
      | div | divu | mfhi | mthi | mflo | mtlo | jr | jalr =>
    rw [encode, decodeWord_special (fieldOp_packR ..)]
    simp [decodeSpecial]
  case syscall | brk =>
    rw [encode, decodeWord_special (fieldOp_packCode ..)]
    simp [decodeSpecial]
  case bltz | bgez | bltzal | bgezal =>
    rw [encode, decodeWord_regimm (fieldOp_packI ..)]
    simp [decodeRegimm]
  all_goals simp [encode, decodeWord]

/-! The other direction: the fields of a word, put side by side again, are the word. -/

/-- Two adjacent slices of a word are one slice. -/
theorem append_slice (w : Word) {m n k : Nat} :
    w.extractLsb' (k + n) m ++ w.extractLsb' k n = w.extractLsb' k (m + n) :=
  BitVec.extractLsb'_append_extractLsb'_eq_extractLsb' rfl

/-- R102: a word is the J-type record of its fields. -/
theorem packJ_of_op {w : Word} {op : BitVec 6} (h : fieldOp w = op) : packJ op (fieldTarget w) = w := by
  subst h
  exact (append_slice w (m := 6) (n := 26) (k := 0)).trans BitVec.extractLsb'_eq_self

/-- R101: a word is the I-type record of its fields. -/
theorem packI_of_op {w : Word} {op : BitVec 6} (h : fieldOp w = op) :
    packI op (fieldRs w) (fieldRt w) (fieldImm w) = w := by
  subst h
  unfold packI fieldOp fieldRs fieldRt fieldImm
  rw [append_slice w (m := 6) (n := 5), append_slice w (n := 5), append_slice w (n := 16), BitVec.extractLsb'_eq_self]

/-- R100: a word under opcode 0 is the R-type record of its fields. -/
theorem packR_of_funct {w : Word} {f : BitVec 6} (h : fieldOp w = 0x00#6) (hf : fieldFunct w = f) :
    packR (fieldRs w) (fieldRt w) (fieldRd w) (fieldShamt w) f = w := by
  rw [packR, ← h, ← hf]
  unfold fieldOp fieldRs fieldRt fieldRd fieldShamt fieldFunct
  rw [append_slice w (m := 6) (n := 5), append_slice w (n := 5), append_slice w (n := 5), append_slice w (n := 5),
    append_slice w (n := 6), BitVec.extractLsb'_eq_self]

/-- R260, R261: a word under opcode 0 is also the record of its code field and `funct`. -/
theorem packCode_of_funct {w : Word} {f : BitVec 6} (h : fieldOp w = 0x00#6) (hf : fieldFunct w = f) :
    packCode (fieldCode w) f = w := by
  rw [packCode, ← h, ← hf]
  unfold fieldOp fieldCode fieldFunct
  rw [append_slice w (m := 6) (n := 20), append_slice w (n := 6), BitVec.extractLsb'_eq_self]

/-- What the SPECIAL map answers encodes to the word (`h_9`, `h_10`: SYSCALL and BREAK; `h_29`: no row). -/
theorem encode_of_decodeSpecial {w : Word} {i : Instr} (hop : fieldOp w = 0x00#6) (h : decodeSpecial w = .ok i) :
    encode i = w := by
  unfold decodeSpecial at h
  split at h
  case h_29 => cases h
  case h_9 hf | h_10 hf => cases h; exact packCode_of_funct hop hf
  all_goals next hf => cases h; exact packR_of_funct hop hf

/-- What the REGIMM map answers encodes to the word (`h_5`: no row). -/
theorem encode_of_decodeRegimm {w : Word} {i : Instr} (hop : fieldOp w = 0x01#6) (h : decodeRegimm w = .ok i) :
    encode i = w := by
  unfold decodeRegimm at h
  split at h
  case h_5 => cases h
  all_goals next hrt => cases h; rw [encode, ← hrt]; exact packI_of_op hop

/-- Settles O44: in every cell of the three maps the encoder packs the fields the decoder took (`h_41`: no row; the J-type
records are J, JAL and the coprocessor rows). -/
theorem encodeOfDecode : Obligations.EncodeOfDecode := by
  intro w i h
  unfold decodeWord at h
  split at h
  case h_1 hop => exact encode_of_decodeSpecial hop h
  case h_2 hop => exact encode_of_decodeRegimm hop h
  case h_41 => cases h
  case h_3 hop | h_4 hop | h_17 hop | h_18 hop | h_19 hop | h_20 hop | h_33 hop | h_34 hop | h_35 hop | h_36 hop | h_37 hop
      | h_38 hop | h_39 hop | h_40 hop => cases h; exact packJ_of_op hop
  all_goals next hop => cases h; exact packI_of_op hop

/-! The cells of the maps. -/

/-- R106, R112: the admitted cells of the SPECIAL map. -/
def admittedFuncts : List (BitVec 6) :=
  [0x00, 0x02, 0x03, 0x04, 0x06, 0x07, 0x08, 0x09, 0x10, 0x11, 0x12, 0x13, 0x18, 0x19, 0x1A, 0x1B, 0x20, 0x21, 0x22, 0x23,
    0x24, 0x25, 0x26, 0x27, 0x2A, 0x2B]

/-- R105, R111: the admitted cells of the primary map that select no other map. -/
def admittedOps : List (BitVec 6) :=
  [0x02, 0x03, 0x04, 0x05, 0x06, 0x07, 0x08, 0x09, 0x0A, 0x0B, 0x0C, 0x0D, 0x0E, 0x0F, 0x20, 0x21, 0x22, 0x23, 0x24, 0x25,
    0x26, 0x28, 0x29, 0x2A, 0x2B, 0x2E]

/-- R262: the illegal rows of the primary map. -/
def illegalOps : List (BitVec 6) := [0x10, 0x11, 0x12, 0x13, 0x30, 0x31, 0x32, 0x33, 0x38, 0x39, 0x3A, 0x3B]

/-- The decoder's answer to a word, where `admitted` says that the word stands in an admitted cell and `illegal` that it stands
in an illegal row. -/
def Accepts (r : Except Reject Instr) (admitted illegal : Prop) : Prop :=
  ((∃ i, r = .ok i ∧ i.admitted = true) ↔ admitted) ∧ ((∃ i, r = .ok i) ↔ admitted ∨ illegal)

theorem Accepts.of_admitted {i : Instr} {a b : Prop} (hi : i.admitted = true) (ha : a) : Accepts (.ok i) a b :=
  ⟨⟨fun _ => ha, fun _ => ⟨i, rfl, hi⟩⟩, ⟨fun _ => .inl ha, fun _ => ⟨i, rfl⟩⟩⟩

theorem Accepts.of_illegal {i : Instr} {a b : Prop} (hi : i.admitted = false) (ha : ¬a) (hb : b) :
    Accepts (.ok i) a b :=
  ⟨⟨fun ⟨_, e, hj⟩ => by cases e; simp [hi] at hj, fun h => (ha h).elim⟩,
    ⟨fun _ => .inr hb, fun _ => ⟨i, rfl⟩⟩⟩

theorem Accepts.of_error {e : Reject} {a b : Prop} (ha : ¬a) (hb : ¬b) : Accepts (.error e) a b :=
  ⟨⟨nofun, fun h => (ha h).elim⟩, ⟨nofun, fun h => (h.elim ha hb).elim⟩⟩

/-- R106, R112: the cells of the SPECIAL map (`h_9`, `h_10`: SYSCALL and BREAK; `h_29`: no row). -/
theorem decodeSpecial_accepts (w : Word) :
    Accepts (decodeSpecial w) (fieldFunct w ∈ admittedFuncts) (fieldFunct w ∈ [0x0C#6, 0x0D#6]) := by
  unfold decodeSpecial
  split
  case h_9 hf | h_10 hf => rw [hf]; exact .of_illegal rfl (by decide) (by decide)
  case h_29 => exact .of_error (by simp_all [admittedFuncts]) (by simp_all)
  all_goals next hf => rw [hf]; exact .of_admitted rfl (by decide)

/-- R107: the cells of the REGIMM map (`h_5`: no row). -/
theorem decodeRegimm_accepts (w : Word) :
    Accepts (decodeRegimm w) (fieldRt w ∈ [0x00#5, 0x01#5, 0x10#5, 0x11#5]) False := by
  unfold decodeRegimm
  split
  case h_5 => exact .of_error (by simp_all) id
  all_goals next hrt => rw [hrt]; exact .of_admitted rfl (by decide)

/-- R105, R111: the cells of the three maps (`h_17` to `h_20` and `h_33` to `h_40`: the coprocessor rows; `h_41`: no row). -/
theorem decodeWord_accepts (w : Word) :
    Accepts (decodeWord w)
      ((fieldOp w = 0x00#6 ∧ fieldFunct w ∈ admittedFuncts) ∨
        (fieldOp w = 0x01#6 ∧ fieldRt w ∈ [0x00#5, 0x01#5, 0x10#5, 0x11#5]) ∨ fieldOp w ∈ admittedOps)
      ((fieldOp w = 0x00#6 ∧ fieldFunct w ∈ [0x0C#6, 0x0D#6]) ∨ fieldOp w ∈ illegalOps) := by
  unfold decodeWord
  split
  case h_1 hop => simpa [hop, admittedOps, illegalOps] using decodeSpecial_accepts w
  case h_2 hop => simpa [hop, admittedOps, illegalOps] using decodeRegimm_accepts w
  case h_17 hop | h_18 hop | h_19 hop | h_20 hop | h_33 hop | h_34 hop | h_35 hop | h_36 hop | h_37 hop | h_38 hop
      | h_39 hop | h_40 hop =>
    rw [hop]; exact .of_illegal rfl (by simp [admittedOps]) (.inr (by decide))
  case h_41 => exact .of_error (by simp_all [admittedOps]) (by simp_all [illegalOps])
  all_goals next hop => rw [hop]; exact .of_admitted rfl (.inr (.inr (by decide)))

theorem toNat_fieldOp (w : Word) : (fieldOp w).toNat = w.toNat / 2 ^ 26 := by
  simp only [fieldOp, BitVec.extractLsb'_toNat, Nat.shiftRight_eq_div_pow]
  omega

theorem toNat_fieldFunct (w : Word) : (fieldFunct w).toNat = w.toNat % 2 ^ 6 := by
  simp [fieldFunct]

theorem toNat_fieldRt (w : Word) : (fieldRt w).toNat = w.toNat / 2 ^ 16 % 2 ^ 5 := by
  simp [fieldRt, Nat.shiftRight_eq_div_pow]

/-- A field stands in a list of cells exactly when its number does. -/
theorem toNat_mem_map_iff {n : Nat} (v : BitVec n) (cells : List (BitVec n)) :
    v.toNat ∈ cells.map BitVec.toNat ↔ v ∈ cells :=
  List.mem_map_of_injective fun _ _ => BitVec.eq_of_toNat_eq

/-- Settles O37: `decodeWord_accepts` with the three fields read as numbers. -/
theorem decoderAcceptsExactlyTheMaps : Obligations.DecoderAcceptsExactlyTheMaps := by
  intro w op funct rt admittedCell illegalRow
  have hop (cells : List (BitVec 6)) : op ∈ cells.map BitVec.toNat ↔ fieldOp w ∈ cells := by
    rw [← toNat_mem_map_iff, toNat_fieldOp]
  have hopEq (v : BitVec 6) : op = v.toNat ↔ fieldOp w = v := by rw [← BitVec.toNat_inj, toNat_fieldOp]
  have hfunct (cells : List (BitVec 6)) : funct ∈ cells.map BitVec.toNat ↔ fieldFunct w ∈ cells := by
    rw [← toNat_mem_map_iff, toNat_fieldFunct]
  have hrt (cells : List (BitVec 5)) : rt ∈ cells.map BitVec.toNat ↔ fieldRt w ∈ cells := by
    rw [← toNat_mem_map_iff, toNat_fieldRt]
  have cells := decodeWord_accepts w
  rw [← hop, ← hop, ← hfunct, ← hfunct, ← hrt, ← hopEq, ← hopEq] at cells
  exact cells

/-- Settles O45: each of the six byte sequences runs through the decoder. -/
theorem knownWordsDecode : Obligations.KnownWordsDecode :=
  ⟨rfl, rfl, rfl, rfl, rfl, rfl⟩

/-- Settles O46: dispatch hands the ignored fields to no meaning but those of the control transfers, which put the raw word in
the fault of a delay slot alone. -/
theorem ignoredFieldsChangeNothing : Obligations.IgnoredFieldsChangeNothing := by
  intro rs rt rd rs' rt' rd' sh sh' imm s
  refine ⟨rfl, rfl, rfl, rfl, rfl, rfl, rfl, rfl, fun hp => ⟨?jr, ?blez, ?bgtz⟩⟩
  case jr | blez | bgtz => exact (transfer_none hp).trans (transfer_none hp).symm

end Sys2Proof.Proofs
end

section
/-! PROOFS. What every step keeps: the invariant (spec 10_state, 20_memory), the configuration and the devices' history, each
shown of one bus write, then of the writes of a step. -/

namespace Sys2Proof.Proofs

open Sys2Proof.Machine

/-- A change of the routed device that a test of bindings does not see keeps the outcome of that test on the bus. -/
theorem updateRouted_any (bus : List Port) (a : Word) {f : Device → Device} {test : Port → Bool}
    (h : ∀ p : Port, test { p with device := f p.device } = test p) : (updateRouted bus a f).any test = bus.any test := by
  induction bus with
  | nil => rfl
  | cons p ps ih =>
    rw [updateRouted]
    split
    · rw [List.any_cons, List.any_cons, h]
    · rw [List.any_cons, List.any_cons, ih]

/-- A write to a device makes no memory device and removes none. -/
theorem holdsByte_write (o : Nat) (n : Width) (v : Word) (a : Nat) (p : Port) :
    Port.holdsByte { p with device := p.device.write o n v } a = p.holdsByte a := by
  obtain ⟨base, d⟩ := p
  cases d with
  | memory len => rfl
  | console buf out => simp only [Device.write]; split <;> rfl
  | halt flag => rfl

/-- One bus write keeps the invariant: in a memory device the stored bytes lie inside it, and another device keeps its
mapping. -/
theorem busWrite_inv {a : Word} {n : Width} {v : Word} {s t : State} (h : busWrite a n v s = .ok t) (hs : s.Inv) :
    t.Inv := by
  obtain ⟨hwf, hbus, hmapped, hzero⟩ := hs
  rcases busWrite_ok h with ⟨p, len, hr, hd, hle, rfl⟩ | ⟨p, _, _, rfl⟩
  · refine ⟨Memory.store_wf _ _ _ hwf, hbus, fun c hc => ?_, hzero⟩
    rcases Memory.mem_store hc with ⟨hlo, hhi⟩ | hc
    · obtain ⟨hp, hcon, _⟩ := route_some hr
      have hbase := (Port.contains_iff.1 hcon).1
      refine List.any_eq_true.2 ⟨p, hp, ?_⟩
      simp only [Port.holdsByte, hd, Bool.and_eq_true, decide_eq_true_eq]
      omega
    · exact hmapped c hc
  · refine ⟨hwf, busWf_congr (updateRouted_mapping _ _ (by simp)).symm hbus, fun c hc => ?_, hzero⟩
    rw [State.setBus_bus, updateRouted_any _ _ (holdsByte_write _ _ _ _)]
    exact hmapped c hc

/-- So do bus writes one after another. -/
theorem writes_inv {s t : State} (h : Writes s t) (hs : s.Inv) : t.Inv := by
  induction h with
  | refl => exact hs
  | write hw _ ih => exact ih (busWrite_inv hw hs)

/-- What an instruction does to memory, the bus, slot 0 and the parameters is what some bus writes do: a store's, or none. -/
theorem effect_writes {i : Instr} {s u : State} (h : Effect i s u) :
    ∃ w, Writes s w ∧ u.regs[0] = w.regs[0] ∧ u.bus = w.bus ∧ u.mem = w.mem ∧ u.params = w.params := by
  cases hi : i.isStore with
  | true => exact ⟨u, h.writes hi, rfl, rfl, rfl, rfl⟩
  | false =>
    obtain ⟨hmem, hbus⟩ := h.mem hi
    exact ⟨s, .refl s, h.slot, hbus, hmem, h.params⟩

/-- The same of every next state of a step; its end, a fault or not, writes the status, `pc` and the latch alone. -/
theorem step_writes {s t : State} (h : step s = .next t) :
    ∃ w, Writes s w ∧ t.regs[0] = w.regs[0] ∧ t.bus = w.bus ∧ t.mem = w.mem ∧ t.params = w.params := by
  obtain ⟨_, ⟨f, rfl⟩ | ⟨i, u, he, hend⟩⟩ := step_next_cases h
  · exact ⟨s, .refl s, rfl, rfl, rfl, rfl⟩
  · obtain ⟨w, hw, hregs⟩ := effect_writes he
    obtain ⟨f, rfl⟩ | ⟨a, next, rfl⟩ := hend
    · exact ⟨w, hw, hregs⟩
    · exact ⟨w, hw, hregs⟩

/-- The invariant reads slot 0, the bus and memory alone. -/
theorem inv_congr {s t : State} (hslot : t.regs[0] = s.regs[0]) (hbus : t.bus = s.bus) (hmem : t.mem = s.mem)
    (h : s.Inv) : t.Inv := by
  simpa only [State.Inv, State.memMapped, hslot, hbus, hmem] using h

/-- Settles O55: a step does to what the invariant reads what bus writes do. -/
theorem stepKeepsInvariant : Obligations.StepKeepsInvariant := by
  intro s t hs h
  obtain ⟨w, hw, hslot, hbus, hmem, _⟩ := step_writes h
  exact inv_congr hslot hbus hmem (writes_inv hw hs)

/-- Settles O56: reset lists no byte, its three bindings are valid and apart, and every register is 0. -/
theorem resetHasInvariant : Obligations.ResetHasInvariant :=
  ⟨⟨.nil, by simp [State.reset]⟩, ⟨by decide, by decide⟩, by simp [State.memMapped, State.reset], by decide⟩

/-- Settles O51: bus writes keep the mappings and the parameters. -/
theorem configurationIsFixed : Obligations.ConfigurationIsFixed := by
  intro s t h
  obtain ⟨w, hw, _, hbus, _, hparams⟩ := step_writes h
  obtain ⟨_, _, _, _, _, _, hframe, hmapping⟩ := hw.frame
  exact ⟨hbus ▸ hmapping, hparams.trans hframe⟩

/-! The history of a device (20_memory R70, R71). -/

/-- What a device may become: memory stays, output and buffered bytes are never taken back, a set flag stays set. -/
def Evolves : Device → Device → Prop
  | .memory len, d => d = .memory len
  | .console buf out, d => ∃ buf' out', d = .console buf' out' ∧ out <+: out' ∧ out ++ buf <+: out' ++ buf'
  | .halt flag, d => ∃ flag', d = .halt flag' ∧ (flag = true → flag' = true)

theorem Evolves.refl (d : Device) : Evolves d d := by
  cases d with
  | memory len => rfl
  | console buf out => exact ⟨buf, out, rfl, ⟨[], List.append_nil _⟩, ⟨[], List.append_nil _⟩⟩
  | halt flag => exact ⟨flag, rfl, id⟩

theorem Evolves.trans {d e f : Device} (h : Evolves d e) (k : Evolves e f) : Evolves d f := by
  cases d with
  | memory len => cases h; exact k
  | console buf out =>
    obtain ⟨_, _, rfl, hout, hall⟩ := h
    obtain ⟨buf', out', rfl, kout, kall⟩ := k
    exact ⟨buf', out', rfl, hout.trans kout, hall.trans kall⟩
  | halt flag =>
    obtain ⟨_, rfl, hflag⟩ := h
    obtain ⟨flag', rfl, kflag⟩ := k
    exact ⟨flag', rfl, kflag ∘ hflag⟩

/-- A write to a device: the console appends a byte to its buffer or its buffer to `stdout`, the halt flag is only ever
set. -/
theorem Evolves.write (o : Nat) (n : Width) (v : Word) (d : Device) : Evolves d (d.write o n v) := by
  cases d with
  | memory len => rfl
  | console buf out =>
    rw [Device.write]
    split
    · exact ⟨_, _, rfl, ⟨[], List.append_nil _⟩, by rw [← List.append_assoc]; exact ⟨_, rfl⟩⟩
    · exact ⟨_, _, rfl, ⟨_, rfl⟩, by rw [List.append_nil]⟩
  | halt flag => exact ⟨_, rfl, fun h => by rw [h]; rfl⟩

/-- Every binding of `s` stands in `t` at the same place, with a device that the first may become. -/
def BusEvolves (s t : State) : Prop :=
  ∀ (n : Nat) (base : Word) (d : Device), s.bus[n]? = some ⟨base, d⟩ →
    ∃ d', t.bus[n]? = some ⟨base, d'⟩ ∧ Evolves d d'

theorem BusEvolves.of_eq {s t : State} (h : t.bus = s.bus) : BusEvolves s t :=
  fun _ _ d hn => ⟨d, by rwa [h], .refl d⟩

theorem BusEvolves.trans {s t u : State} (h : BusEvolves s t) (k : BusEvolves t u) : BusEvolves s u := by
  intro n base d hn
  obtain ⟨d', hn', hd⟩ := h n base d hn
  obtain ⟨d'', hn'', hd'⟩ := k n base d' hn'
  exact ⟨d'', hn'', hd.trans hd'⟩

/-- A change of the routed device leaves every binding's place and base, and each device as it was or changed. -/
theorem updateRouted_getElem? {bus : List Port} {n : Nat} {base : Word} {d : Device} (a : Word) (f : Device → Device)
    (h : bus[n]? = some ⟨base, d⟩) :
    (updateRouted bus a f)[n]? = some ⟨base, d⟩ ∨ (updateRouted bus a f)[n]? = some ⟨base, f d⟩ := by
  induction bus generalizing n with
  | nil => simp at h
  | cons p ps ih =>
    rw [updateRouted]
    cases n with
    | zero =>
      obtain rfl : p = ⟨base, d⟩ := by simpa using h
      split
      · exact .inr rfl
      · exact .inl rfl
    | succ n =>
      split
      · exact .inl h
      · exact ih h

/-- Bus writes change devices only into what they may become. -/
theorem writes_busEvolves {s t : State} (h : Writes s t) : BusEvolves s t := by
  induction h with
  | refl => exact .of_eq rfl
  | write hw _ ih =>
    refine BusEvolves.trans ?_ ih
    rcases busWrite_ok hw with ⟨p, len, _, _, _, rfl⟩ | ⟨p, _, _, rfl⟩
    · exact .of_eq rfl
    · intro n base d hn
      rcases updateRouted_getElem? _ _ hn with e | e
      · exact ⟨d, e, .refl d⟩
      · exact ⟨_, e, .write ..⟩

/-- Every step, faulted or not, changes devices only into what they may become. -/
theorem step_busEvolves {s t : State} (h : step s = .next t) : BusEvolves s t := by
  obtain ⟨w, hw, _, hbus, _, _⟩ := step_writes h
  exact (writes_busEvolves hw).trans (.of_eq hbus)

/-- Settles O52: a halt device whose flag is set can only become one whose flag is set. -/
theorem haltFlagStaysSet : Obligations.HaltFlagStaysSet := by
  intro s t n base h _ hn
  obtain ⟨_, hn', flag, rfl, hflag⟩ := step_busEvolves h n base _ hn
  rwa [hflag rfl] at hn'

/-- Settles O53: what a console may become. -/
theorem consoleOutputOnlyGrows : Obligations.ConsoleOutputOnlyGrows := by
  intro s t n base buf out h _ hn
  obtain ⟨_, hn', buf', out', rfl, hout, hall⟩ := step_busEvolves h n base _ hn
  exact ⟨buf', out', hn', hout, hall⟩

end Sys2Proof.Proofs
end

section
/-! PROOFS. The statements about registers and about what any instruction may change (spec 10_state). -/

namespace Sys2Proof.Proofs

open Sys2Proof.Machine

/-- What a register reads after a write (10_state R22). -/
theorem x_setX (s : State) (r q : Reg) (v : Word) : (s.setX r v).x q = if q = r ∧ r ≠ 0#5 then v else s.x q := by
  split
  · next h => obtain ⟨rfl, h0⟩ := h; exact s.setX_x_self v h0
  · next h =>
    by_cases hq : q = r
    · obtain rfl : r = 0#5 := not_not.1 fun h0 => h ⟨hq, h0⟩
      rw [State.setX_zero]
    · exact s.setX_x_ne v hq

/-- Settles O2: a read after a write, and the fields `setX` leaves alone. -/
theorem registersAreStorage : Obligations.RegistersAreStorage := fun s r q v =>
  ⟨x_setX s r q v, s.setX_pc r v, s.setX_hi r v, s.setX_lo r v, s.setX_pending r v, s.setX_status r v, s.setX_bus r v,
    s.setX_mem r v, s.setX_params r v⟩

/-- Settles O3: the end of a step writes no register, so the effect's frame is the instruction's. -/
theorem onlyDestinationRegisterChanges : Obligations.OnlyDestinationRegisterChanges := by
  intro i s t _ h ht q hq
  obtain ⟨u, next, he, _, rfl, _⟩ := exec_running h ht
  exact he.regs q hq

/-- Settles O4: the same for `hi` and `lo`. -/
theorem onlyMulDivAndMovesChangeHiLo : Obligations.OnlyMulDivAndMovesChangeHiLo := by
  intro i s t _ h ht
  obtain ⟨u, next, he, _, rfl, _⟩ := exec_running h ht
  exact ⟨fun hw => ⟨he.hi (.inl hw), he.lo (.inl hw)⟩, fun rs rt rd sh e => he.lo (.inr ⟨rs, rt, rd, sh, e⟩),
    fun rs rt rd sh e => he.hi (.inr ⟨rs, rt, rd, sh, e⟩)⟩

/-- Settles O5: the same for memory and the bus. -/
theorem onlyStoresChangeMemoryAndDevices : Obligations.OnlyStoresChangeMemoryAndDevices := by
  intro i s t _ h ht hi
  obtain ⟨u, next, he, _, rfl, _⟩ := exec_running h ht
  exact he.mem hi

end Sys2Proof.Proofs
end

section
/-! PROOFS. The statements about the step and its faults (spec 10_state section 8, 60_exceptions). -/

namespace Sys2Proof.Proofs

open Sys2Proof.Machine

/-- A failed fetch is raised, and nothing else happens (10_state R30). -/
theorem step_fetch_error {s : State} {f : Fault} (h : s.Running) (hf : fetch s = .error f) :
    step s = .next (s.setStatus (.faulted f)) := by
  simp [step, h, hf]

/-- A fetched word that selects no row is raised as IllegalInstruction (30_encoding R108). -/
theorem step_no_row {s : State} {w : Word} {e : Reject} (h : s.Running) (hf : fetch s = .ok w)
    (hw : decodeWord w = .error e) : step s = .next (s.setStatus (.faulted (.illegalInstruction w s.pc))) := by
  simp [step, h, hf, hw]

/-- A fetched word that decodes is executed (10_state R30). -/
theorem step_decoded {s : State} {w : Word} {i : Instr} (h : s.Running) (hf : fetch s = .ok w)
    (hw : decodeWord w = .ok i) : step s = exec i s := by
  simp [step, h, hf, hw]

/-- The alignment test of the fetch on the number of `pc`. -/
theorem low_bits_eq_zero_iff (a : Word) : a.extractLsb' 0 2 = 0#2 ↔ a.toNat % 4 = 0 := by
  rw [← BitVec.toNat_inj]
  simp

/-- A fetch at a misaligned `pc` (60_exceptions R276). -/
theorem fetch_misaligned {s : State} (h : s.pc.toNat % 4 ≠ 0) : fetch s = .error (.misalignedFetch s.pc) :=
  if_pos ((low_bits_eq_zero_iff _).not.2 h)

/-- A fetch at an aligned `pc` is a bus read of 4 bytes. -/
theorem fetch_aligned {s : State} (h : s.pc.toNat % 4 = 0) : fetch s = busRead .fetch s.pc .word s :=
  if_neg (not_not.2 ((low_bits_eq_zero_iff _).2 h))

/-- R61: a read that no binding covers. -/
theorem busRead_unmapped {k : Access} {a : Word} {n : Width} {s : State} (h : route s.bus a = none) :
    busRead k a n s = .error (.invalidAddress a k n s.pc) := by
  simp [busRead, h]

/-- R69: a read past a memory device's end. -/
theorem busRead_pastEnd {k : Access} {a : Word} {n : Width} {s : State} {p : Port} {o : Nat} {len : Word}
    (h : route s.bus a = some (p, o)) (hd : p.device = .memory len) (hlt : len.toNat < o + n.bytes) :
    busRead k a n s = .error (.deviceRange a k n s.pc) := by
  simp [busRead, h, hd, Nat.not_le.2 hlt]

/-- Settles O38: the alignment test comes first, then the bus read's two faults, then the decoder's rejection. -/
theorem fetchAndDispatchFaults : Obligations.FetchAndDispatchFaults := by
  intro s hs
  refine ⟨fun hpc => ?misaligned, fun hpc hr => ?unmapped, fun p o len hpc hr hd hlt => ?pastEnd, fun w e hw he => ?noRow⟩
  case misaligned => exact step_fetch_error hs (fetch_misaligned hpc)
  case unmapped => exact step_fetch_error hs ((fetch_aligned hpc).trans (busRead_unmapped hr))
  case pastEnd => exact step_fetch_error hs ((fetch_aligned hpc).trans (busRead_pastEnd hr hd hlt))
  case noRow => exact step_no_row hs hw he

/-- Settles O47: the fetch reads the little-endian word of the four bytes, which is the word `decodeBytes` decodes. -/
theorem stepRunsDecodedInstruction : Obligations.StepRunsDecodedInstruction := by
  intro s i rest hs hpc hmem byte hdec
  have hfetch : fetch s = .ok (wordOfBytes (byte 0) (byte 1) (byte 2) (byte 3)) :=
    (fetch_aligned hpc).trans (busRead_byte_inMemory (n := .word) hmem)
  refine step_decoded hs hfetch ?_
  simp only [List.cons_append, List.nil_append, decodeBytes] at hdec
  split at hdec
  · next j hj => cases hdec; exact hj
  · cases hdec

/-- Every instruction answers a next state. -/
theorem exec_next (i : Instr) (s : State) : ∃ t, exec i s = .next t := by
  obtain ⟨u, _, ⟨next, e, _⟩ | ⟨f, e, _⟩⟩ := exec_cases i s
  · rw [e]; exact complete_next next u
  · exact ⟨_, e⟩

/-- Settles O39: a running machine raises or executes, and both answer a next state; a faulted one answers its fault. -/
theorem stepAnswersByStatus : Obligations.StepAnswersByStatus := by
  intro s
  refine ⟨fun hs => ?_, fun f hf => by simp [step, hf]⟩
  rcases step_cases hs with ⟨f, e, _⟩ | ⟨w, i, _, _, e⟩ <;> rw [e]
  · exact ⟨_, rfl⟩
  · exact exec_next i s

/-- How an instruction that ends faulted came to: PcOverflow where its step could not advance, or a fault of execution, in the
state `u` that its effect left. -/
theorem exec_faulted {i : Instr} {s t : State} {f : Fault} (hs : s.Running) (h : exec i s = .next t)
    (ht : t.status = .faulted f) :
    ∃ u, t = u.setStatus (.faulted f) ∧ u.pc = s.pc ∧ ((¬s.Advances ∧ f = .pcOverflow s.pc) ∨ ExecFault f s u) := by
  obtain ⟨u, he, ⟨next, e, _⟩ | ⟨g, e, hg⟩⟩ := exec_cases i s
  · rcases complete_cases next u with ⟨_, e'⟩ | ⟨ha, e'⟩ <;> rw [e, e'] at h <;> cases h
    · rw [State.setFlow_status, he.status, hs] at ht
      cases ht
    · cases ht
      refine ⟨u, by rw [he.pc], he.pc, .inl ⟨fun hadv => ha ?_, by rw [he.pc]⟩⟩
      exact (State.Advances_congr he.pc he.pending).2 hadv
  · rw [e] at h
    cases h
    cases ht
    exact ⟨u, rfl, he.pc, .inr hg⟩

/-- How a step that ends faulted came to: a fault of fetch or dispatch, which changes the status alone, or the faulted end of an
instruction. -/
theorem step_faulted {s t : State} {f : Fault} (h : step s = .next t) (ht : t.status = .faulted f) :
    (t = s.setStatus (.faulted f) ∧ f.pc = s.pc) ∨
      ∃ u, t = u.setStatus (.faulted f) ∧ u.pc = s.pc ∧ (f = .pcOverflow s.pc ∨ ExecFault f s u) := by
  have hs := step_running h
  rcases step_cases hs with ⟨g, e, hpc, _⟩ | ⟨w, i, _, _, e⟩ <;> rw [e] at h
  · cases h
    cases ht
    exact .inl ⟨rfl, hpc⟩
  · obtain ⟨u, htu, hpc, hf⟩ := exec_faulted hs h ht
    exact .inr ⟨u, htu, hpc, hf.imp And.right id⟩

/-- Settles O40: each way to a fault keeps `pc` and records it. -/
theorem faultKeepsProgramCounter : Obligations.FaultKeepsProgramCounter := by
  intro s t f h ht
  obtain ⟨rfl, hf⟩ | ⟨u, rfl, hu, rfl | hf⟩ := step_faulted h ht
  · exact ⟨rfl, hf⟩
  · exact ⟨hu, rfl⟩
  · exact ⟨hu, hf.pc⟩

/-- Settles O41: of the faults of an instruction only those of dispatch have one of these codes or the kind fetch, and they are
raised before any effect. -/
theorem dispatchFaultsChangeOnlyStatus : Obligations.DispatchFaultsChangeOnlyStatus := by
  intro s t f h ht hf
  obtain ⟨rfl, _⟩ | ⟨u, rfl, _, rfl | hexec⟩ := step_faulted h ht
  · rfl
  · simp [Fault.code] at hf
  · rcases hf with hcode | ⟨a, n, e⟩ | ⟨a, n, e⟩
    · have hdispatch : f.code ∈ [1, 8, 9] := by
        have := hexec.code.1
        simp_all
      rw [hexec.dispatch hdispatch]
    · exact ((hexec.kind a n s.pc).1 e).elim
    · exact ((hexec.kind a n s.pc).2 e).elim

/-- A state that does not advance stands at the top word without a latch (60_exceptions R279). -/
theorem not_advances_iff {s : State} : ¬s.Advances ↔ s.pending = none ∧ s.pc = 0xFFFFFFFC#32 := by
  simp [State.Advances]

/-- Settles O42: an instruction ends running only where its step advances, no fault of execution is PcOverflow, and the no-op
has no other fault. -/
theorem pcOverflowExactlyAtTop : Obligations.PcOverflowExactlyAtTop := by
  intro i s t hs h
  refine ⟨fun hp hpc ht => ?notRunning, fun ht => ?onlyThere, fun hp hpc => ?noOp⟩
  case notRunning =>
    obtain ⟨_, _, _, hadv, _⟩ := exec_running h ht
    exact not_advances_iff.2 ⟨hp, hpc⟩ hadv
  case onlyThere =>
    obtain ⟨u, _, _, ⟨hadv, _⟩ | hexec⟩ := exec_faulted hs h ht
    · exact not_advances_iff.1 hadv
    · exact (hexec.code.2 rfl).elim
  case noOp =>
    have hover := complete_overflows none (not_advances_iff.2 ⟨hp, hpc⟩)
    have hnop : exec (.sll 0#5 0#5 0#5 0#5) s = raise (.pcOverflow s.pc) s := by
      rw [← hover, exec, execSll, writeResult, State.setX_zero]
    rw [hnop, ← hpc]
    exact raises_raise rfl

end Sys2Proof.Proofs
end

section
/-! PROOFS. The statements about branches and the latch (spec 44_control). -/

namespace Sys2Proof.Proofs

open Sys2Proof.Machine

/-- R235 in arithmetic: the branch offset is 4 times the signed immediate. -/
theorem branchTarget_eq_ofInt (pc : Word) (imm : BitVec 16) :
    branchTarget pc imm = pc + 4#32 + BitVec.ofInt 32 (4 * imm.toInt) := by
  have hoffset : signImm imm <<< 2 = BitVec.ofInt 32 (4 * imm.toInt) := by
    rw [BitVec.ofInt_mul, shiftLeft_eq_ofNat_mul, BitVec.ofNat_mul, BitVec.ofNat_toNat, BitVec.setWidth_eq, BitVec.mul_comm]
    rfl
  rw [branchTarget, hoffset]

/-- A transfer that latches what a branch does: the target when the condition holds, else `A + 8` (R230). -/
theorem branchLatch_cases {done : Word → Answer} {ans : Answer} {taken : Bool} {pc : Word} {imm : BitVec 16} {P : Prop}
    (h : ans = done (branchLatch taken pc imm)) (hP : taken = true ↔ P) :
    (P → ans = done (pc + 4#32 + BitVec.ofInt 32 (4 * imm.toInt))) ∧ (¬P → ans = done (pc + 8#32)) := by
  refine ⟨fun hp => ?_, fun hp => ?_⟩
  · rw [h, branchLatch, if_pos (hP.2 hp), branchTarget_eq_ofInt]
  · rw [h, branchLatch, if_neg (hP.not.2 hp), afterSlot]

/-- Settles O27: each of the six is a `branch`, which latches as its condition says. -/
theorem conditionalBranchResults : Obligations.ConditionalBranchResults := by
  intro rs rt imm s hp hpc a target latches
  have hbranch (w : Word) (taken : Bool) :
      branch w taken imm s = .next (s.setFlow (s.pc + 4#32) (some (branchLatch taken s.pc imm))) :=
    transfer_latches hp hpc rfl
  let done (t : Word) : Answer := .next (s.setFlow (s.pc + 4#32) (some t))
  refine ⟨?beq, ?bne, ?blez, ?bgtz, ?bltz, ?bgez⟩
  case beq => exact branchLatch_cases (done := done) (hbranch _ _) beq_iff_eq
  case bne => exact branchLatch_cases (done := done) (hbranch _ _) bne_iff_ne
  case blez => exact branchLatch_cases (done := done) (hbranch _ _) (by simp [isNonPositive, a])
  case bgtz => exact branchLatch_cases (done := done) (hbranch _ _) (by simp [isNonPositive, a])
  case bltz => exact branchLatch_cases (done := done) (hbranch _ _) (by simp [isNegative, a])
  case bgez => exact branchLatch_cases (done := done) (hbranch _ _) (by simp [isNegative, a])

/-- Settles O28: both are a `branchLink`, which off the conflict links and latches as its condition says. -/
theorem linkBranchResults : Obligations.LinkBranchResults := by
  intro rs imm s hp hpc hrs a target latches
  have hlink (w : Word) (taken : Bool) : branchLink w rs taken imm s =
      .next ((s.setX 31#5 (s.pc + 8#32)).setFlow (s.pc + 4#32) (some (branchLatch taken s.pc imm))) :=
    transfer_links hp hpc (if_neg hrs)
  let done (t : Word) : Answer := .next ((s.setX 31#5 (s.pc + 8#32)).setFlow (s.pc + 4#32) (some t))
  refine ⟨?bltzal, ?bgezal⟩
  case bltzal => exact branchLatch_cases (done := done) (hlink _ _) (by simp [isNegative, a])
  case bgezal => exact branchLatch_cases (done := done) (hlink _ _) (by simp [isNegative, a])

/-- Settles O32: the end of a step stores what the instruction latched, and only a control transfer latches. -/
theorem controlTransfersAloneLatch : Obligations.ControlTransfersAloneLatch := by
  intro i s t _ h ht
  obtain ⟨u, next, _, _, rfl, hnext, _⟩ := exec_running h ht
  exact hnext

/-- A step that ends running executed an instruction. -/
theorem step_running_exec {s t : State} (h : step s = .next t) (ht : t.Running) : ∃ i, exec i s = .next t := by
  rcases step_cases (step_running h) with ⟨f, e, _⟩ | ⟨w, i, _, _, e⟩ <;> rw [e] at h
  · cases h; cases ht
  · exact ⟨i, h⟩

/-- Settles O33: the end of the step applies the latch, and a control transfer, which alone could latch again, does not end
running in a delay slot. -/
theorem delaySlotReachesTarget : Obligations.DelaySlotReachesTarget := by
  intro s t target hp h ht
  obtain ⟨i, hi⟩ := step_running_exec h ht
  obtain ⟨u, next, _, _, rfl, hnext, hslot⟩ := exec_running hi ht
  have hnone : next = none := by
    by_contra hne
    rw [hslot (hnext.1 hne)] at hp
    cases hp
  exact ⟨by rw [State.setFlow_pc, State.nextPc, hp], hnone⟩

/-- Settles O34: without a latch the end of the step advances by 4, which it does not at the top word. -/
theorem sequentialAdvance : Obligations.SequentialAdvance := by
  intro s t hp h ht
  obtain ⟨i, hi⟩ := step_running_exec h ht
  obtain ⟨u, next, _, hadv, rfl, _⟩ := exec_running hi ht
  exact ⟨by rw [State.setFlow_pc, State.nextPc, hp], hadv hp⟩

/-! Alignment of the latched targets (44_control R237). -/

/-- A transfer that ends running stood outside a delay slot and ran its body. -/
theorem transfer_running {w : Word} {body : State → Answer} {s t : State} (h : transfer w body s = .next t)
    (ht : t.Running) : body s = .next t := by
  by_cases hp : s.pending = none
  · rwa [transfer_none hp] at h
  · rw [transfer_some hp] at h
    cases h
    cases ht

/-- The latch after the end of a step. -/
theorem complete_running {next : Option Word} {s t : State} (h : complete next s = .next t) (ht : t.Running) :
    t.pending = next := by
  rcases complete_cases next s with ⟨_, e⟩ | ⟨_, e⟩ <;> rw [e] at h <;> cases h
  · rfl
  · cases ht

/-- A branch from an aligned `pc` latches an aligned address, taken or not. -/
theorem branchLatch_aligned (taken : Bool) {pc : Word} (imm : BitVec 16) (h : pc.toNat % 4 = 0) :
    (branchLatch taken pc imm).toNat % 4 = 0 := by
  cases taken with
  | true =>
    rw [branchLatch, if_pos rfl, branchTarget, shiftLeft_eq_ofNat_mul]
    simp only [BitVec.toNat_add, BitVec.toNat_ofNat]
    omega
  | false =>
    rw [branchLatch, if_neg (by decide), afterSlot]
    simp only [BitVec.toNat_add, BitVec.toNat_ofNat]
    omega

/-- J and JAL latch an aligned address. -/
theorem jumpTarget_aligned (pc : Word) (target : BitVec 26) : (jumpTarget pc target).toNat % 4 = 0 := by
  rw [jumpTarget_eq_ofNat, BitVec.toNat_ofNat]
  omega

/-- What a branch leaves in the latch. -/
theorem branch_running {w : Word} {taken : Bool} {imm : BitVec 16} {s t : State} (h : branch w taken imm s = .next t)
    (ht : t.Running) : t.pending = some (branchLatch taken s.pc imm) :=
  complete_running (transfer_running h ht) ht

/-- What a branch with link leaves in the latch. -/
theorem branchLink_running {w : Word} {rs : Reg} {taken : Bool} {imm : BitVec 16} {s t : State}
    (h : branchLink w rs taken imm s = .next t) (ht : t.Running) : t.pending = some (branchLatch taken s.pc imm) := by
  have hbody := transfer_running h ht
  split at hbody
  · cases hbody; cases ht
  · exact complete_running hbody ht

/-- From an aligned `pc` every control transfer but JR and JALR latches an aligned address. -/
theorem exec_latch_aligned {i : Instr} {s t : State} {a : Word}
    (hi : ∀ rs rt rd sh, i ≠ .jr rs rt rd sh ∧ i ≠ .jalr rs rt rd sh) (hpc : s.pc.toNat % 4 = 0)
    (hc : i.isControlTransfer = true) (h : exec i s = .next t) (ht : t.Running) (ha : t.pending = some a) :
    a.toNat % 4 = 0 := by
  cases i
  case beq | bne | blez | bgtz | bltz | bgez =>
    obtain rfl := Option.some.inj (ha.symm.trans (branch_running h ht))
    exact branchLatch_aligned _ _ hpc
  case bltzal | bgezal =>
    obtain rfl := Option.some.inj (ha.symm.trans (branchLink_running h ht))
    exact branchLatch_aligned _ _ hpc
  case j | jal =>
    rw [exec] at h
    have hbody := transfer_running h ht
    obtain rfl := Option.some.inj (ha.symm.trans (complete_running hbody ht))
    exact jumpTarget_aligned _ _
  case jr rs rt rd sh => exact ((hi rs rt rd sh).1 rfl).elim
  case jalr rs rt rd sh => exact ((hi rs rt rd sh).2 rfl).elim
  all_goals cases hc

/-- Settles O35: `pc` becomes the aligned latch or the next word; a latch is new, and then a control transfer's. -/
theorem onlyJumpRegisterMisaligns : Obligations.OnlyJumpRegisterMisaligns := by
  intro i s t aligned hi hpc hlatch _ h ht
  obtain ⟨u, next, _, _, htu, hnext, _⟩ := exec_running h ht
  constructor
  · rw [htu, State.setFlow_pc, State.nextPc]
    cases hp : s.pending with
    | some target => exact hlatch target hp
    | none =>
      change (s.pc + 4#32).toNat % 4 = 0
      have : s.pc.toNat % 4 = 0 := hpc
      rw [BitVec.toNat_add, BitVec.toNat_ofNat]
      omega
  · intro a ha
    have hc : i.isControlTransfer = true := hnext.1 (by rw [← State.setFlow_pending u s.nextPc next, ← htu, ha]; simp)
    exact exec_latch_aligned hi hpc hc h ht ha

end Sys2Proof.Proofs
end

section
/-! PROOFS. The statements about memory bytes (spec 20_memory sections 4 and 7). -/

namespace Sys2Proof.Proofs

open Sys2Proof.Machine

/-- Two adjacent lanes are a half-word slice of the value. -/
theorem append_lane (v : Word) (k : Nat) : lane v (k + 1) ++ lane v k = v.extractLsb' (8 * k) 16 :=
  append_slice v (m := 8) (n := 8)

/-- The four lanes of a value, the first least significant, are the value (20_memory R51). -/
theorem wordOfBytes_lane (v : Word) : wordOfBytes (lane v 0) (lane v 1) (lane v 2) (lane v 3) = v := by
  unfold wordOfBytes lane
  rw [append_slice v (m := 8) (n := 8) (k := 16), append_slice v (n := 8) (k := 8), append_slice v (n := 8) (k := 0),
    BitVec.extractLsb'_eq_self]

/-- A byte loaded inside a store (20_memory R68, R79). -/
theorem load_byte_store {m : Memory} (a : Nat) {k : Nat} {n : Width} (v : Word) (h : m.wf) (hk : k < n.bytes) :
    (m.store a n v).load (a + k) .byte = (v.extractLsb' (8 * k) 8).setWidth 32 := by
  rw [Memory.load, Memory.read_store_lane a v h hk, lane]

/-- A half-word loaded inside a store (20_memory R68, R79). -/
theorem load_half_store {m : Memory} (a : Nat) {k : Nat} {n : Width} (v : Word) (h : m.wf) (hk : k + 1 < n.bytes) :
    (m.store a n v).load (a + k) .half = (v.extractLsb' (8 * k) 16).setWidth 32 := by
  rw [Memory.load, Nat.add_assoc, Memory.read_store_lane a v h hk, Memory.read_store_lane a v h (by omega), append_lane]

/-- A word loaded where it was stored (20_memory R68). -/
theorem load_word_store {m : Memory} (a : Nat) (v : Word) (h : m.wf) : (m.store a .word v).load a .word = v := by
  have hlane (k : Nat) (hk : k < 4) : (m.store a .word v).read (a + k) = lane v k :=
    Memory.read_store_lane a v h hk
  have hfirst : (m.store a .word v).read a = lane v 0 := hlane 0 (by decide)
  rw [Memory.load, hfirst, hlane 1 (by decide), hlane 2 (by decide), hlane 3 (by decide), wordOfBytes_lane]

/-- Settles O49: the loads of a stored value, at its own place and inside it. -/
theorem memoryRoundTripAndMixedWidth : Obligations.MemoryRoundTripAndMixedWidth := by
  intro m a v h
  refine ⟨?byte, ?half, load_word_store a v h, fun k hk => ?byteInWord, fun k hk => ?halfInWord⟩
  case byte => exact load_byte_store a (k := 0) v h (by decide)
  case half => exact load_half_store a (k := 0) v h (by decide)
  case byteInWord => exact load_byte_store a v h hk
  case halfInWord => exact load_half_store a v h (Nat.succ_lt_succ hk)

/-- The least listed address of a canonical memory reads its own byte, and that is no unlisted one. -/
theorem read_head_ne {k : Nat} {c : Byte} {m : Memory} (h : Memory.wf ((k, c) :: m)) :
    Memory.read ((k, c) :: m) k ≠ Memory.unlisted := by
  obtain ⟨_, hc, _⟩ := Memory.wf_cons.1 h
  simpa [Memory.read] using hc

/-- With equal reads no canonical memory lists an address below every address of the other. -/
theorem not_below_of_read_eq {k : Nat} {c : Byte} {m n : Memory} (hm : Memory.wf ((k, c) :: m))
    (h : ∀ a, Memory.read ((k, c) :: m) a = n.read a) : ¬∀ d ∈ n, k < d.1 :=
  fun hbelow => read_head_ne hm ((h k).trans (Memory.read_below hbelow))

/-- Settles O50, by induction on one list: equal reads make the heads list the same least address with the same byte, and the
tails read alike, at that address both as unlisted. -/
theorem canonicalMemoryIsExtensional : Obligations.CanonicalMemoryIsExtensional := by
  intro m
  induction m with
  | nil =>
    intro n _ hn h
    cases n with
    | nil => rfl
    | cons d n => exact (not_below_of_read_eq hn (fun a => (h a).symm) (by simp)).elim
  | cons d m ih =>
    intro n hm hn h
    obtain ⟨k, c⟩ := d
    cases n with
    | nil => exact (not_below_of_read_eq hm h (by simp)).elim
    | cons e n =>
      obtain ⟨l, b⟩ := e
      obtain ⟨hk, _, hm'⟩ := Memory.wf_cons.1 hm
      obtain ⟨hl, _, hn'⟩ := Memory.wf_cons.1 hn
      have hkl : k = l := by
        rcases Nat.lt_trichotomy k l with hlt | heq | hgt
        · exact (not_below_of_read_eq hm h (List.forall_mem_cons.2 ⟨hlt, fun d hd => hlt.trans (hl d hd)⟩)).elim
        · exact heq
        · exact (not_below_of_read_eq hn (fun a => (h a).symm)
            (List.forall_mem_cons.2 ⟨hgt, fun d hd => hgt.trans (hk d hd)⟩)).elim
      subst hkl
      have hcb : c = b := by simpa [Memory.read] using h k
      have htail (a : Nat) : Memory.read m a = Memory.read n a := by
        by_cases ha : k = a
        · subst ha
          rw [Memory.read_below hk, Memory.read_below hl]
        · simpa [Memory.read, ha] using h a
      rw [hcb, ih n hm' hn' htail]

end Sys2Proof.Proofs
end

section
/-! PROOFS. The statements about loads and stores of one bus access (spec 43_loadstore, R200 to R209): first what `loadWith` and
`storeWith` do by the answer of the bus, then what the bus answers. -/

namespace Sys2Proof.Proofs

open Sys2Proof.Machine

/-- A load whose bus read succeeds, where the step advances. -/
theorem loadWith_ok {ext : Word → Word} {n : Width} {rs rt : Reg} {imm : BitVec 16} {s : State} {v : Word}
    (ha : s.Advances) (h : busRead .read (s.effAddr rs imm) n s = .ok v) :
    loadWith ext n rs rt imm s = .next ((s.setX rt (ext v)).setFlow s.nextPc none) := by
  simp only [loadWith, h]
  exact writeResult_advances rt _ ha

/-- A load whose bus read fails raises that fault, into `x[0]` too (R200). -/
theorem loadWith_error {ext : Word → Word} {n : Width} {rs rt : Reg} {imm : BitVec 16} {s : State} {f : Fault}
    (h : busRead .read (s.effAddr rs imm) n s = .error f) : loadWith ext n rs rt imm s = raise f s := by
  simp only [loadWith, h]

/-- A step that advances ends at the same `pc` after bus writes. -/
theorem complete_of_frame {s t : State} (next : Option Word) (ha : s.Advances) (hpc : t.pc = s.pc)
    (hp : t.pending = s.pending) : complete next t = .next (t.setFlow s.nextPc next) := by
  have hnext : t.nextPc = s.nextPc := by rw [State.nextPc, State.nextPc, hpc, hp]
  rw [complete_advances next ((State.Advances_congr hpc hp).2 ha), hnext]

/-- A store whose bus write succeeds, where the step advances. -/
theorem storeWith_ok {n : Width} {rs rt : Reg} {imm : BitVec 16} {s t : State} (ha : s.Advances)
    (h : busWrite (s.effAddr rs imm) n (s.x rt) s = .ok t) :
    storeWith n rs rt imm s = .next (t.setFlow s.nextPc none) := by
  obtain ⟨_, hpc, _, _, hp, _⟩ := busWrite_frame h
  simp only [storeWith, h]
  exact complete_of_frame none ha hpc hp

/-- A store whose bus write fails raises that fault. -/
theorem storeWith_error {n : Width} {rs rt : Reg} {imm : BitVec 16} {s : State} {f : Fault}
    (h : busWrite (s.effAddr rs imm) n (s.x rt) s = .error f) : storeWith n rs rt imm s = raise f s := by
  simp only [storeWith, h]

/-! Loads. -/

/-- R202. -/
theorem signByte_load (m : Memory) (a : Nat) : signByte (m.load a .byte) = (m.read a).signExtend 32 := by
  simp [signByte, Memory.load]

/-- R203. -/
theorem truncate_load_byte (m : Memory) (a : Nat) : Width.byte.truncate (m.load a .byte) = (m.read a).setWidth 32 := by
  simp [Width.truncate, Memory.load]

/-- R204. -/
theorem signHalf_load (m : Memory) (a : Nat) :
    signHalf (m.load a .half) = (m.read (a + 1) ++ m.read a).signExtend 32 := by
  simp [signHalf, Memory.load]

/-- R205. -/
theorem truncate_load_half (m : Memory) (a : Nat) :
    Width.half.truncate (m.load a .half) = (m.read (a + 1) ++ m.read a).setWidth 32 := by
  simp [Width.truncate, Memory.load]

/-- Settles O16: in a memory device the bus reads the bytes there, and each load extends them as its rule says. -/
theorem loadResultsFromMemory : Obligations.LoadResultsFromMemory := by
  intro rs rt imm s ha ea byte done
  have hload (ext : Word → Word) (n : Width) (h : s.inMemory ea n.bytes) :
      loadWith ext n rs rt imm s = done (ext (s.mem.load ea.toNat n)) :=
    loadWith_ok ha (busRead_byte_inMemory h)
  refine ⟨fun h => ⟨(hload _ .byte h).trans ?lb, (hload _ .byte h).trans ?lbu⟩,
    fun h => ⟨(hload _ .half h).trans ?lh, (hload _ .half h).trans ?lhu⟩, fun h => hload _ .word h⟩
  case lb => rw [signByte_load]; rfl
  case lbu => rw [truncate_load_byte]; rfl
  case lh => rw [signHalf_load]; rfl
  case lhu => rw [truncate_load_half]; rfl

/-- Reads that answer 0 or 1 are the same under every extension, so the five loads write that value (R202 to R206). -/
theorem loads_of_flag {rs rt : Reg} {imm : BitVec 16} {s : State} {flag : Bool} (ha : s.Advances)
    (h : ∀ n, busRead .read (s.effAddr rs imm) n s = .ok (if flag then 1#32 else 0#32)) :
    ∀ i ∈ [Instr.lb rs rt imm, .lbu rs rt imm, .lh rs rt imm, .lhu rs rt imm, .lw rs rt imm],
      exec i s = .next ((s.setX rt (if flag then 1#32 else 0#32)).setFlow s.nextPc none) := by
  have hload (ext : Word → Word) (n : Width) (hext : ext (if flag then 1#32 else 0#32) = if flag then 1#32 else 0#32) :
      loadWith ext n rs rt imm s = .next ((s.setX rt (if flag then 1#32 else 0#32)).setFlow s.nextPc none) := by
    rw [loadWith_ok ha (h n), hext]
  simp only [List.forall_mem_cons, List.not_mem_nil, false_implies, implies_true, and_true]
  refine ⟨hload _ .byte ?lb, hload _ .byte ?lbu, hload _ .half ?lh, hload _ .half ?lhu, hload _ .word ?lw⟩
  all_goals cases flag <;> decide

/-- Settles O17: whatever the width, the bus reads 0 from a console and the flag from a halt device. -/
theorem loadResultsFromDevices : Obligations.LoadResultsFromDevices := by
  intro rs rt imm s p o ha hr loads
  have hroute : route s.bus (s.effAddr rs imm) = some (p, o) := hr
  refine ⟨fun buf out hd => ?console, fun flag hd => ?halt⟩
  case console => exact loads_of_flag (flag := false) ha fun n => by simp [busRead, hroute, hd]
  case halt => exact loads_of_flag ha fun n => by simp [busRead, hroute, hd]

/-! Faults. -/

/-- R61: a write that no binding covers. -/
theorem busWrite_unmapped {a : Word} {n : Width} {v : Word} {s : State} (h : route s.bus a = none) :
    busWrite a n v s = .error (.invalidAddress a .write n s.pc) := by
  simp [busWrite, h]

/-- R69: a write past a memory device's end. -/
theorem busWrite_pastEnd {a : Word} {n : Width} {v : Word} {s : State} {p : Port} {o : Nat} {len : Word}
    (h : route s.bus a = some (p, o)) (hd : p.device = .memory len) (hlt : len.toNat < o + n.bytes) :
    busWrite a n v s = .error (.deviceRange a .write n s.pc) := by
  simp [busWrite, h, hd, Nat.not_le.2 hlt]

/-- A meaning that ends in `raise` takes its fault (60_exceptions R272) and leaves memory as it was (R69). -/
theorem raises_and_keeps_mem {ans : Answer} {f : Fault} {s : State} (h : ans = raise f s) (hpc : f.pc = s.pc) :
    Raises ans f ∧ ∀ t, ans = .next t → t.mem = s.mem := by
  subst h
  refine ⟨raises_raise hpc, fun t ht => ?_⟩
  cases ht
  rfl

/-- Settles O18: the five loads raise what the bus read of their address answers, the three stores what the bus write does. -/
theorem loadStoreFaults : Obligations.LoadStoreFaults := by
  intro rs rt imm s ea accesses
  let faults (ans : Answer) (k : Access) (n : Width) : Prop :=
    (route s.bus ea = none → Raises ans (.invalidAddress ea k n s.pc)) ∧
    (∀ p o len, route s.bus ea = some (p, o) → p.device = .memory len → len.toNat < o + n.bytes →
      Raises ans (.deviceRange ea k n s.pc) ∧ ∀ t, ans = .next t → t.mem = s.mem)
  have hload (ext : Word → Word) (n : Width) : faults (loadWith ext n rs rt imm s) .read n :=
    ⟨fun hr => (raises_and_keeps_mem (loadWith_error (busRead_unmapped hr)) rfl).1,
      fun p o len hr hd hlt => raises_and_keeps_mem (loadWith_error (busRead_pastEnd hr hd hlt)) rfl⟩
  have hstore (n : Width) : faults (storeWith n rs rt imm s) .write n :=
    ⟨fun hr => (raises_and_keeps_mem (storeWith_error (busWrite_unmapped hr)) rfl).1,
      fun p o len hr hd hlt => raises_and_keeps_mem (storeWith_error (busWrite_pastEnd hr hd hlt)) rfl⟩
  have hall : ∀ access ∈ accesses, faults (exec access.1 s) access.2.1 access.2.2 := by
    simp only [accesses, List.forall_mem_cons, List.not_mem_nil, false_implies, implies_true, and_true]
    exact ⟨hload _ .byte, hload _ .byte, hload _ .half, hload _ .half, hload _ .word, hstore .byte, hstore .half,
      hstore .word⟩
  exact fun i k n hi => hall (i, k, n) hi

/-! Stores. -/

/-- Settles O19: in a memory device the bus stores the value's bytes, and nothing else changes. -/
theorem storeResultsInMemory : Obligations.StoreResultsInMemory := by
  intro rs rt imm s ha hwf ea stores
  have hstore (n : Width) (h : s.inMemory ea n.bytes) : storeWith n rs rt imm s =
      .next ((s.setMem (s.mem.store ea.toNat n (s.x rt))).setFlow s.nextPc none) :=
    storeWith_ok ha (busWrite_inMemory h)
  have hread (n : Width) (q : Nat) := Memory.read_store ea.toNat q n (s.x rt) hwf
  exact ⟨fun h => ⟨_, hstore .byte h, hread .byte⟩, fun h => ⟨_, hstore .half h, hread .half⟩,
    fun h => ⟨_, hstore .word h, hread .word⟩⟩

/-- Routing passes over the bindings that do not contain the address (20_memory R60). -/
theorem route_append {before after : List Port} {p : Port} {a : Word} (hb : ∀ q ∈ before, q.contains a = false)
    (hp : p.contains a = true) : route (before ++ p :: after) a = some (p, a.toNat - p.base.toNat) := by
  induction before with
  | nil => simp [route, hp]
  | cons q qs ih =>
    rw [List.cons_append, route, if_neg (by simp [hb q]), ih fun r hr => hb r (List.mem_cons_of_mem q hr)]

/-- So does the change of the routed device. -/
theorem updateRouted_append {before after : List Port} {p : Port} {a : Word} (f : Device → Device)
    (hb : ∀ q ∈ before, q.contains a = false) (hp : p.contains a = true) :
    updateRouted (before ++ p :: after) a f = before ++ { p with device := f p.device } :: after := by
  induction before with
  | nil => simp [updateRouted, hp]
  | cons q qs ih =>
    rw [List.cons_append, updateRouted, if_neg (by simp [hb q]), ih fun r hr => hb r (List.mem_cons_of_mem q hr),
      List.cons_append]

/-- A write at a console or a halt device changes that device alone (20_memory R63). -/
theorem busWrite_device {s : State} {before after : List Port} {p : Port} {a : Word} (n : Width) (v : Word)
    (hbus : s.bus = before ++ p :: after) (hb : ∀ q ∈ before, q.contains a = false) (hp : p.contains a = true)
    (hd : ∀ len, p.device ≠ .memory len) :
    busWrite a n v s =
      .ok (s.setBus (before ++ { p with device := p.device.write (a.toNat - p.base.toNat) n v } :: after)) := by
  have hr : route s.bus a = some (p, a.toNat - p.base.toNat) := hbus ▸ route_append hb hp
  have hu := updateRouted_append (after := after) (Device.write (a.toNat - p.base.toNat) n v) hb hp
  rw [← hbus] at hu
  obtain ⟨base, d⟩ := p
  cases d with
  | memory len => exact (hd len rfl).elim
  | console buf out => simp only [busWrite, hr, hu]
  | halt flag => simp only [busWrite, hr, hu]

/-- Settles O20: the write reaches the console at offset 0 or 1, whatever the width. -/
theorem storesToConsole : Obligations.StoresToConsole := by
  intro rs rt imm s before after base buf out ha hbus ea hb done
  have hstore (n : Width) (hea : base.toNat ≤ ea.toNat ∧ ea.toNat < base.toNat + 2) :
      storeWith n rs rt imm s = done ((Device.console buf out).write (ea.toNat - base.toNat) n (s.x rt)) :=
    storeWith_ok ha (busWrite_device n _ hbus hb (Port.contains_iff.2 hea) nofun)
  have hboth (n : Width) :
      (ea.toNat = base.toNat →
        storeWith n rs rt imm s = done (.console (buf ++ [(s.x rt).extractLsb' 0 8]) out)) ∧
      (ea.toNat = base.toNat + 1 → storeWith n rs rt imm s = done (.console [] (out ++ buf))) := by
    refine ⟨fun he => (hstore n (by omega)).trans ?append, fun he => (hstore n (by omega)).trans ?flush⟩
    case append => rw [he, Nat.sub_self, Device.write, if_pos rfl, lane]
    case flush => rw [he, Nat.add_sub_cancel_left, Device.write, if_neg (by decide)]
  simp only [List.forall_mem_cons, List.not_mem_nil, false_implies, implies_true, and_true]
  exact ⟨hboth .byte, hboth .half, hboth .word⟩

/-- R70: the value cut to the width is 0 exactly when the low bits are. -/
theorem truncate_eq_zero_iff (n : Width) (v : Word) : n.truncate v = 0#32 ↔ v.toNat % 2 ^ (8 * n.bytes) = 0 := by
  have hv : v.toNat % 2 ^ 32 = v.toNat := Nat.mod_eq_of_lt v.isLt
  rw [← BitVec.toNat_inj]
  cases n
  case byte | half =>
    simp only [Width.truncate, Width.bytes, BitVec.toNat_setWidth, BitVec.toNat_ofNat]
    omega
  case word => rw [Width.truncate, Width.bytes, BitVec.toNat_ofNat, Nat.zero_mod, hv]

/-- R70: a write to the halt device sets its flag or leaves it, as the value cut to the width is not 0 or is. -/
theorem write_halt (o : Nat) (n : Width) (v : Word) (flag : Bool) :
    (Device.halt flag).write o n v = if v.toNat % 2 ^ (8 * n.bytes) = 0 then .halt flag else .halt true := by
  split
  · next h => simp [Device.write, (truncate_eq_zero_iff n v).2 h]
  · next h => simp [Device.write, (truncate_eq_zero_iff n v).not.2 h]

/-- Settles O21: the write reaches the halt device at its one byte; a flag left as it was leaves the whole bus. -/
theorem storesToHalt : Obligations.StoresToHalt := by
  intro rs rt imm s before after base flag ha hbus hea hb stores
  have hc : Port.contains ⟨base, .halt flag⟩ base = true := Port.contains_iff.2 ⟨le_rfl, Nat.lt_succ_self _⟩
  have hstore (n : Width) : storeWith n rs rt imm s =
      if (s.x rt).toNat % 2 ^ (8 * n.bytes) = 0 then .next (s.setFlow s.nextPc none)
      else .next ((s.setBus (before ++ ⟨base, .halt true⟩ :: after)).setFlow s.nextPc none) := by
    have hwrite (d : Device) (hd : (Device.halt flag).write (base.toNat - base.toNat) n (s.x rt) = d) :
        busWrite (s.effAddr rs imm) n (s.x rt) s = .ok (s.setBus (before ++ ⟨base, d⟩ :: after)) := by
      rw [show s.effAddr rs imm = base from hea, ← hd]
      exact busWrite_device n (s.x rt) hbus hb hc nofun
    split
    · next hz =>
      rw [storeWith_ok ha (hwrite (.halt flag) (by rw [write_halt, if_pos hz])), ← hbus]
      rfl
    · next hz => exact storeWith_ok ha (hwrite (.halt true) (by rw [write_halt, if_neg hz]))
  exact ⟨hstore .byte, hstore .half, hstore .word⟩

/-- R83: a fetch after a word was stored at an aligned address in a memory device. -/
theorem fetch_stored {s t : State} {a : Word} {v : Word} (hwf : s.mem.wf) (hal : a.toNat % 4 = 0) (h : s.inMemory a 4)
    (hpc : t.pc = a) (hbus : t.bus = s.bus) (hmem : t.mem = s.mem.store a.toNat .word v) : fetch t = .ok v := by
  have ht : t.inMemory a Width.word.bytes := by rw [State.inMemory, hbus]; exact h
  subst hpc
  rw [fetch_aligned hal, busRead_byte_inMemory ht, hmem, load_word_store _ _ hwf]

/-- Settles O54: the store is in the memory the fetch reads, at the same place and width. -/
theorem storeIsSeenByFetch : Obligations.StoreIsSeenByFetch := by
  intro rs rt imm s t latch hinv ea hal hmem hs h ht
  obtain ⟨_, _, _, hadv, _⟩ := exec_running h ht
  have hsw : exec (.sw rs rt imm) s =
      .next ((s.setMem (s.mem.store ea.toNat .word (s.x rt))).setFlow s.nextPc none) :=
    storeWith_ok hadv (busWrite_inMemory (n := .word) hmem)
  rw [hsw] at h
  cases h
  exact fetch_stored hinv.1 hal hmem rfl rfl rfl

end Sys2Proof.Proofs
end

section
/-! PROOFS. The statements about the unaligned loads and stores (spec 43_loadstore, R210 to R215): lanes, what a byte walk does
whatever its addresses, then the two walks. -/

namespace Sys2Proof.Proofs

open Sys2Proof.Machine

/-! Lanes of a word (00_scope R9). -/

/-- A lane after one lane was set. -/
theorem lane_setLane (v : Word) {i j : Nat} (b : Byte) (hj : j < 4) :
    lane (setLane v i b) j = if i = j then b else lane v j := by
  have hmask (n : Nat) : (0xFF#32).getLsbD n = decide (n < 8) := by
    rw [show 0xFF#32 = (BitVec.allOnes 8).setWidth 32 from rfl, BitVec.getLsbD_setWidth, BitVec.getLsbD_allOnes,
      ← Bool.decide_and]
    exact decide_eq_decide.2 (by omega)
  ext k hk
  have hbit : 8 * j + k < 32 := by omega
  simp only [lane, setLane, BitVec.getElem_extractLsb', BitVec.getLsbD_or, BitVec.getLsbD_and, BitVec.getLsbD_not,
    BitVec.getLsbD_shiftLeft, BitVec.getLsbD_setWidth, hmask]
  rcases Nat.lt_trichotomy i j with hlt | rfl | hgt
  · have habove : 8 ≤ 8 * j + k - 8 * i := by omega
    simp [hlt.ne, hbit, BitVec.getLsbD_of_ge b _ habove, Nat.not_lt.2 habove]
  · have hin : k < 32 := by omega
    simp [hbit, hk, hin]
  · have hbelow : 8 * j + k < 8 * i := by omega
    simp [hgt.ne', hbit, hbelow]

/-- The lowest lane. -/
theorem lane_zero (w : Word) : lane w 0 = w.setWidth 8 := (BitVec.setWidth_eq_extractLsb' (by decide)).symm

/-- The one byte of a byte access. -/
theorem lane_setWidth (b : Byte) : lane (b.setWidth 32) 0 = b := by
  simp [lane_zero]

/-! What a byte walk loads and stores. -/

/-- A walk whose reads all succeed puts in each lane it names the byte read for it. -/
theorem loadLanes_ok {s : State} {walk : List (Word × Nat)} (v : Word) {new : Nat → Byte}
    (h : ∀ d ∈ walk, ∃ w, busRead .read d.1 .byte s = .ok w ∧ w.setWidth 8 = new d.2) :
    ∃ u, loadLanes s walk v = .ok u ∧ ∀ i < 4, lane u i = if i ∈ walk.map Prod.snd then new i else lane v i := by
  induction walk generalizing v with
  | nil => exact ⟨v, rfl, by simp⟩
  | cons d walk ih =>
    obtain ⟨a, l⟩ := d
    obtain ⟨w, hw, hnew⟩ := h (a, l) (by simp)
    obtain ⟨u, hu, hlanes⟩ := ih (setLane v l (w.setWidth 8)) fun d hd => h d (by simp [hd])
    refine ⟨u, by simp only [loadLanes, hw, hu], fun i hi => ?_⟩
    rw [hlanes i hi, lane_setLane v _ hi, hnew]
    grind

/-- An unaligned load whose reads all succeed, where the step advances. -/
theorem loadWalk_ok {s : State} {walk : List (Word × Nat)} {new : Nat → Byte} (rt : Reg) (ha : s.Advances)
    (h : ∀ d ∈ walk, ∃ w, busRead .read d.1 .byte s = .ok w ∧ w.setWidth 8 = new d.2) :
    ∃ v, loadWalk walk rt s = .next ((s.setX rt v).setFlow s.nextPc none) ∧
      ∀ i < 4, lane v i = if i ∈ walk.map Prod.snd then new i else lane (s.x rt) i := by
  obtain ⟨v, hv, hlanes⟩ := loadLanes_ok (s.x rt) h
  refine ⟨v, ?_, hlanes⟩
  simp only [loadWalk, hv]
  exact writeResult_advances rt v ha

/-- A walk in memory devices stores at each of its addresses the lane that goes with it, and leaves every other byte. -/
theorem storeLanes_inMemory {s : State} {walk : List (Word × Nat)} (v : Word) {laneAt : Nat → Nat} (hwf : s.mem.wf)
    (h : ∀ d ∈ walk, s.inMemory d.1 1 ∧ d.2 = laneAt d.1.toNat) :
    ∃ m : Memory, storeLanes v walk s = .ok (s.setMem m) ∧
      ∀ q, m.read q = if q ∈ walk.map (fun d => d.1.toNat) then lane v (laneAt q) else s.mem.read q := by
  induction walk generalizing s with
  | nil => exact ⟨s.mem, rfl, by simp⟩
  | cons d walk ih =>
    obtain ⟨a, l⟩ := d
    obtain ⟨hmem, hl⟩ : s.inMemory a 1 ∧ l = laneAt a.toNat := h (a, l) (by simp)
    have hw : busWrite a .byte ((lane v l).setWidth 32) s = .ok (s.setMem (s.mem.write a.toNat (lane v l))) := by
      rw [busWrite_inMemory (n := .byte) hmem, Memory.store, lane_setWidth]
    obtain ⟨m, hm, hread⟩ := ih (s := s.setMem (s.mem.write a.toNat (lane v l))) (Memory.write_wf _ _ hwf)
      fun d hd => h d (by simp [hd])
    refine ⟨m, by simp only [storeLanes, hw, hm]; rfl, fun q => ?_⟩
    rw [hread q, State.setMem_mem, Memory.read_write _ _ _ hwf, hl]
    grind

/-- An unaligned store whose writes all succeed, where the step advances. -/
theorem storeWalk_ok {s t : State} {walk : List (Word × Nat)} {rt : Reg} (ha : s.Advances)
    (h : storeLanes (s.x rt) walk s = .ok t) : storeWalk walk rt s = .next (t.setFlow s.nextPc none) := by
  obtain ⟨_, hpc, _, _, hp, _⟩ := storeLanes_frame (.inl h)
  rw [storeWalk, h]
  exact complete_of_frame none ha hpc hp

/-- A walk whose writes the bus makes one after another ends in the last of their states. -/
theorem storeLanes_chain {v : Word} {n : Nat} {addr : Nat → Word} {laneOf : Nat → Nat} {at' : Nat → State}
    (h : ∀ j < n, busWrite (addr j) .byte ((lane v (laneOf j)).setWidth 32) (at' j) = .ok (at' (j + 1))) :
    storeLanes v ((List.range n).map fun j => (addr j, laneOf j)) (at' 0) = .ok (at' n) := by
  induction n generalizing addr laneOf at' with
  | zero => rfl
  | succ n ih =>
    have hrest := ih (addr := fun j => addr (j + 1)) (laneOf := fun j => laneOf (j + 1)) (at' := fun j => at' (j + 1))
      fun j hj => h (j + 1) (Nat.succ_lt_succ hj)
    rw [List.range_succ_eq_map, List.map_cons, List.map_map]
    simp only [storeLanes, h 0 (Nat.succ_pos n)]
    exact hrest

/-! The two walks: LWL and SWL go down from `ea` to the start of its aligned word, LWR and SWR up to the end of it, so no address
of a walk wraps. -/

theorem byteInWord_eq (ea : Word) : byteInWord ea = ea.toNat % 4 := by
  simp [byteInWord]

theorem mem_walkDown {ea : Word} {d : Word × Nat} :
    d ∈ walkDown ea ↔ ∃ j ≤ ea.toNat % 4, d = (ea - BitVec.ofNat 32 j, 3 - j) := by
  simp only [walkDown, byteInWord_eq, List.mem_map, List.mem_range, Nat.lt_succ_iff, eq_comm]

theorem mem_walkUp {ea : Word} {d : Word × Nat} :
    d ∈ walkUp ea ↔ ∃ j ≤ 3 - ea.toNat % 4, d = (ea + BitVec.ofNat 32 j, j) := by
  have hlt (j : Nat) : j < 4 - ea.toNat % 4 ↔ j ≤ 3 - ea.toNat % 4 := by omega
  simp only [walkUp, byteInWord_eq, List.mem_map, List.mem_range, hlt, eq_comm]

theorem toNat_down {ea : Word} {j : Nat} (hj : j ≤ ea.toNat % 4) : (ea - BitVec.ofNat 32 j).toNat = ea.toNat - j := by
  have := ea.isLt
  rw [BitVec.toNat_sub, BitVec.toNat_ofNat]
  omega

theorem toNat_up {ea : Word} {j : Nat} (hj : j ≤ 3 - ea.toNat % 4) : (ea + BitVec.ofNat 32 j).toNat = ea.toNat + j := by
  have := ea.isLt
  rw [BitVec.toNat_add, BitVec.toNat_ofNat]
  omega

/-- The lanes LWL and SWL take. -/
theorem mem_lanes_walkDown {ea : Word} {i : Nat} (hi : i < 4) :
    i ∈ (walkDown ea).map Prod.snd ↔ 3 ≤ i + ea.toNat % 4 := by
  rw [List.mem_map]
  constructor
  · rintro ⟨d, hd, rfl⟩
    obtain ⟨j, hj, rfl⟩ := mem_walkDown.1 hd
    simp only
    omega
  · intro h
    exact ⟨_, mem_walkDown.2 ⟨3 - i, by omega, rfl⟩, by simp only; omega⟩

/-- The lanes LWR and SWR take. -/
theorem mem_lanes_walkUp {ea : Word} {i : Nat} : i ∈ (walkUp ea).map Prod.snd ↔ i + ea.toNat % 4 ≤ 3 := by
  rw [List.mem_map]
  constructor
  · rintro ⟨d, hd, rfl⟩
    obtain ⟨j, hj, rfl⟩ := mem_walkUp.1 hd
    simp only
    omega
  · intro h
    exact ⟨_, mem_walkUp.2 ⟨i, by omega, rfl⟩, rfl⟩

/-- The addresses LWL and SWL take. -/
theorem mem_addrs_walkDown {ea : Word} {q : Nat} :
    q ∈ (walkDown ea).map (fun d => d.1.toNat) ↔ ea.toNat ≤ q + ea.toNat % 4 ∧ q ≤ ea.toNat := by
  rw [List.mem_map]
  constructor
  · rintro ⟨d, hd, rfl⟩
    obtain ⟨j, hj, rfl⟩ := mem_walkDown.1 hd
    rw [toNat_down hj]
    omega
  · intro h
    have hj : ea.toNat - q ≤ ea.toNat % 4 := by omega
    exact ⟨_, mem_walkDown.2 ⟨ea.toNat - q, hj, rfl⟩, by rw [toNat_down hj]; omega⟩

/-- The addresses LWR and SWR take. -/
theorem mem_addrs_walkUp {ea : Word} {q : Nat} :
    q ∈ (walkUp ea).map (fun d => d.1.toNat) ↔ ea.toNat ≤ q ∧ q + ea.toNat % 4 ≤ ea.toNat + 3 := by
  rw [List.mem_map]
  constructor
  · rintro ⟨d, hd, rfl⟩
    obtain ⟨j, hj, rfl⟩ := mem_walkUp.1 hd
    rw [toNat_up hj]
    omega
  · intro h
    have hj : q - ea.toNat ≤ 3 - ea.toNat % 4 := by omega
    exact ⟨_, mem_walkUp.2 ⟨q - ea.toNat, hj, rfl⟩, by rw [toNat_up hj]; omega⟩

/-! Unaligned loads. -/

/-- R211: LWL by what the bus reads. -/
theorem execLwl_ok {rs rt : Reg} {imm : BitVec 16} {s : State} {byte : Nat → Word} (ha : s.Advances)
    (h : ∀ j ≤ (s.effAddr rs imm).toNat % 4,
      busRead .read (s.effAddr rs imm - BitVec.ofNat 32 j) .byte s = .ok (byte j)) :
    ∃ v, execLwl rs rt imm s = .next ((s.setX rt v).setFlow s.nextPc none) ∧
      ∀ i < 4, lane v i = if 3 ≤ i + (s.effAddr rs imm).toNat % 4 then lane (byte (3 - i)) 0 else lane (s.x rt) i := by
  obtain ⟨v, hv, hlanes⟩ := loadWalk_ok (walk := walkDown (s.effAddr rs imm)) (new := fun i => lane (byte (3 - i)) 0) rt ha
    fun d hd => by
      obtain ⟨j, hj, rfl⟩ := mem_walkDown.1 hd
      refine ⟨byte j, h j hj, ?_⟩
      rw [Nat.sub_sub_self (by omega), lane_zero]
  exact ⟨v, hv, fun i hi => by rw [hlanes i hi]; simp only [mem_lanes_walkDown hi]⟩

/-- R212: LWR by what the bus reads. -/
theorem execLwr_ok {rs rt : Reg} {imm : BitVec 16} {s : State} {byte : Nat → Word} (ha : s.Advances)
    (h : ∀ j ≤ 3 - (s.effAddr rs imm).toNat % 4,
      busRead .read (s.effAddr rs imm + BitVec.ofNat 32 j) .byte s = .ok (byte j)) :
    ∃ v, execLwr rs rt imm s = .next ((s.setX rt v).setFlow s.nextPc none) ∧
      ∀ i < 4, lane v i = if i + (s.effAddr rs imm).toNat % 4 ≤ 3 then lane (byte i) 0 else lane (s.x rt) i := by
  obtain ⟨v, hv, hlanes⟩ := loadWalk_ok (walk := walkUp (s.effAddr rs imm)) (new := fun i => lane (byte i) 0) rt ha
    fun d hd => by
      obtain ⟨j, hj, rfl⟩ := mem_walkUp.1 hd
      exact ⟨byte j, h j hj, (lane_zero _).symm⟩
  exact ⟨v, hv, fun i hi => by rw [hlanes i hi]; simp only [mem_lanes_walkUp]⟩

/-- Settles O22: the loads by what the bus reads, and in memory devices it reads the bytes there. -/
theorem unalignedLoadResults : Obligations.UnalignedLoadResults := by
  intro rs rt imm s ha ea k done lanes
  have hbyte {a : Word} (h : s.inMemory a 1) : busRead .read a .byte s = .ok ((s.mem.read a.toNat).setWidth 32) :=
    busRead_byte_inMemory (n := .byte) h
  refine ⟨fun h => ?lwlMemory, fun h => ?lwrMemory, fun byte h => execLwl_ok ha h, fun byte h => execLwr_ok ha h⟩
  case lwlMemory =>
    obtain ⟨v, hv, hlanes⟩ := execLwl_ok (rt := rt) (imm := imm) ha fun j hj => hbyte (h j hj)
    refine ⟨v, hv, fun i hi => (hlanes i hi).trans ?_⟩
    simp only [decide_eq_true_eq]
    refine if_ctx_congr Iff.rfl (fun hk => ?_) fun _ => rfl
    have hj : 3 - i ≤ ea.toNat % 4 := Nat.sub_le_iff_le_add'.2 hk
    rw [lane_setWidth]
    exact congrArg (Memory.read s.mem) (toNat_down hj)
  case lwrMemory =>
    obtain ⟨v, hv, hlanes⟩ := execLwr_ok (rt := rt) (imm := imm) ha fun j hj => hbyte (h j hj)
    refine ⟨v, hv, fun i hi => (hlanes i hi).trans ?_⟩
    simp only [decide_eq_true_eq]
    refine if_ctx_congr Iff.rfl (fun hk => ?_) fun _ => rfl
    have hj : i ≤ 3 - ea.toNat % 4 := Nat.le_sub_of_add_le hk
    rw [lane_setWidth]
    exact congrArg (Memory.read s.mem) (toNat_up hj)

/-! Unaligned stores. -/

/-- R213: SWL in memory devices. -/
theorem execSwl_inMemory {rs rt : Reg} {imm : BitVec 16} {s : State} (ha : s.Advances) (hwf : s.mem.wf)
    (h : ∀ j ≤ (s.effAddr rs imm).toNat % 4, s.inMemory (s.effAddr rs imm - BitVec.ofNat 32 j) 1) :
    ∃ m : Memory, execSwl rs rt imm s = .next ((s.setMem m).setFlow s.nextPc none) ∧
      ∀ q, m.read q =
        if (s.effAddr rs imm).toNat ≤ q + (s.effAddr rs imm).toNat % 4 ∧ q ≤ (s.effAddr rs imm).toNat then
          lane (s.x rt) (3 - ((s.effAddr rs imm).toNat - q))
        else s.mem.read q := by
  obtain ⟨m, hm, hread⟩ := storeLanes_inMemory (walk := walkDown (s.effAddr rs imm)) (s.x rt)
    (laneAt := fun q => 3 - ((s.effAddr rs imm).toNat - q)) hwf fun d hd => by
      obtain ⟨j, hj, rfl⟩ := mem_walkDown.1 hd
      exact ⟨h j hj, by rw [toNat_down hj]; omega⟩
  exact ⟨m, storeWalk_ok ha hm, fun q => by rw [hread q]; simp only [mem_addrs_walkDown]⟩

/-- R214: SWR in memory devices. -/
theorem execSwr_inMemory {rs rt : Reg} {imm : BitVec 16} {s : State} (ha : s.Advances) (hwf : s.mem.wf)
    (h : ∀ j ≤ 3 - (s.effAddr rs imm).toNat % 4, s.inMemory (s.effAddr rs imm + BitVec.ofNat 32 j) 1) :
    ∃ m : Memory, execSwr rs rt imm s = .next ((s.setMem m).setFlow s.nextPc none) ∧
      ∀ q, m.read q =
        if (s.effAddr rs imm).toNat ≤ q ∧ q + (s.effAddr rs imm).toNat % 4 ≤ (s.effAddr rs imm).toNat + 3 then
          lane (s.x rt) (q - (s.effAddr rs imm).toNat)
        else s.mem.read q := by
  obtain ⟨m, hm, hread⟩ := storeLanes_inMemory (walk := walkUp (s.effAddr rs imm)) (s.x rt)
    (laneAt := fun q => q - (s.effAddr rs imm).toNat) hwf fun d hd => by
      obtain ⟨j, hj, rfl⟩ := mem_walkUp.1 hd
      exact ⟨h j hj, by rw [toNat_up hj]; omega⟩
  exact ⟨m, storeWalk_ok ha hm, fun q => by rw [hread q]; simp only [mem_addrs_walkUp]⟩

/-- Settles O23: the stores in memory devices, and by the chain of the bus's writes. -/
theorem unalignedStoreResults : Obligations.UnalignedStoreResults := by
  intro rs rt imm s ha hwf ea k
  refine ⟨fun h => execSwl_inMemory ha hwf h, fun h => execSwr_inMemory ha hwf h, fun at' h0 h => ?swl, fun at' h0 h => ?swr⟩
  case swl =>
    have hchain := storeLanes_chain (n := k + 1) (addr := fun j => ea - BitVec.ofNat 32 j) (laneOf := fun j => 3 - j)
      fun j hj => h j (Nat.lt_succ_iff.1 hj)
    rw [h0] at hchain
    refine storeWalk_ok ha ?_
    rwa [walkDown, byteInWord_eq]
  case swr =>
    have hk : k < 4 := Nat.mod_lt _ (by decide)
    have hchain := storeLanes_chain (n := 4 - k) (addr := fun j => ea + BitVec.ofNat 32 j) (laneOf := fun j => j)
      fun j hj => h j (by omega)
    rw [h0] at hchain
    refine storeWalk_ok ha ?_
    rwa [walkUp, byteInWord_eq]

/-! Faults: a byte that a binding covers is always in range, so a walk gets to its first unmapped byte. -/

theorem busRead_byte_routed {k : Access} {a : Word} {s : State} (h : route s.bus a ≠ none) :
    ∃ w, busRead k a .byte s = .ok w := by
  obtain ⟨⟨p, o⟩, hr⟩ := Option.ne_none_iff_exists'.1 h
  obtain ⟨_, ho⟩ := route_offset_lt hr
  unfold busRead
  simp only [hr]
  split
  · next len hd => exact ⟨_, if_pos (by rw [hd] at ho; exact ho)⟩
  · exact ⟨_, rfl⟩
  · exact ⟨_, rfl⟩

theorem busWrite_byte_routed {a : Word} {v : Word} {s : State} (h : route s.bus a ≠ none) :
    ∃ t, busWrite a .byte v s = .ok t := by
  obtain ⟨⟨p, o⟩, hr⟩ := Option.ne_none_iff_exists'.1 h
  obtain ⟨_, ho⟩ := route_offset_lt hr
  unfold busWrite
  simp only [hr]
  split
  · next len hd => exact ⟨_, if_pos (by rw [hd] at ho; exact ho)⟩
  · exact ⟨_, rfl⟩
  · exact ⟨_, rfl⟩

/-- Whether an address is mapped depends on the mappings alone. -/
theorem route_eq_none_congr {b c : List Port} (h : b.map Port.mapping = c.map Port.mapping) (a : Word) :
    route b a = none ↔ route c a = none := by
  have hmapping (bus : List Port) : route bus a = none ↔
      ∀ x ∈ bus.map Port.mapping, ¬(x.1.toNat ≤ a.toNat ∧ a.toNat < x.1.toNat + x.2) := by
    rw [route_eq_none_iff, List.forall_mem_map]
    exact forall₂_congr fun p _ => not_congr Port.contains_iff
  rw [hmapping, hmapping, h]

/-- R280: a walk that loads raises the InvalidAddress of its first unmapped byte. -/
theorem loadLanes_unmapped {s : State} {before after : List (Word × Nat)} {a : Word} {l : Nat} (v : Word)
    (hb : ∀ d ∈ before, route s.bus d.1 ≠ none) (ha : route s.bus a = none) :
    loadLanes s (before ++ (a, l) :: after) v = .error (.invalidAddress a .read .byte s.pc) := by
  induction before generalizing v with
  | nil => simp only [List.nil_append, loadLanes, busRead_unmapped ha]
  | cons d before ih =>
    obtain ⟨w, hw⟩ := busRead_byte_routed (k := .read) (hb d (by simp))
    simp only [List.cons_append, loadLanes, hw]
    exact ih _ fun e he => hb e (by simp [he])

/-- R280: a walk that stores does too, in the state its earlier bytes left, with the `pc` of the instruction. -/
theorem storeLanes_unmapped {s : State} {before after : List (Word × Nat)} {a : Word} {l : Nat} (v : Word)
    (hb : ∀ d ∈ before, route s.bus d.1 ≠ none) (ha : route s.bus a = none) :
    ∃ t, storeLanes v (before ++ (a, l) :: after) s = .error (.invalidAddress a .write .byte s.pc, t) := by
  induction before generalizing s with
  | nil => exact ⟨s, by simp only [List.nil_append, storeLanes, busWrite_unmapped ha]⟩
  | cons d before ih =>
    obtain ⟨t, ht⟩ := busWrite_byte_routed (hb d (by simp)) (v := (lane v d.2).setWidth 32)
    obtain ⟨_, hpc, _, _, _, _, _, hmap⟩ := busWrite_frame ht
    simp only [List.cons_append, storeLanes, ht, ← hpc]
    exact ih (fun e he => (route_eq_none_congr hmap e.1).not.2 (hb e (by simp [he]))) ((route_eq_none_congr hmap a).2 ha)

/-- An unaligned load raises the InvalidAddress of its first unmapped byte. -/
theorem loadWalk_unmapped {s : State} {before after : List (Word × Nat)} {a : Word} {l : Nat} (rt : Reg)
    (hb : ∀ d ∈ before, route s.bus d.1 ≠ none) (ha : route s.bus a = none) :
    Raises (loadWalk (before ++ (a, l) :: after) rt s) (.invalidAddress a .read .byte s.pc) := by
  simp only [loadWalk, loadLanes_unmapped (s.x rt) hb ha]
  exact raises_raise rfl

/-- So does an unaligned store. -/
theorem storeWalk_unmapped {s : State} {before after : List (Word × Nat)} {a : Word} {l : Nat} (rt : Reg)
    (hb : ∀ d ∈ before, route s.bus d.1 ≠ none) (ha : route s.bus a = none) :
    Raises (storeWalk (before ++ (a, l) :: after) rt s) (.invalidAddress a .write .byte s.pc) := by
  obtain ⟨t, ht⟩ := storeLanes_unmapped (after := after) (l := l) (s.x rt) hb ha
  obtain ⟨_, hpc, _⟩ := storeLanes_frame (.inr ⟨_, ht⟩)
  rw [storeWalk, ht]
  exact raises_raise hpc.symm

/-- A walk by a count is its first `j` bytes, byte `j` and the rest. -/
theorem map_range_split {α : Type} (f : Nat → α) {n j : Nat} (h : j < n) :
    ∃ after, (List.range n).map f = (List.range j).map f ++ f j :: after := by
  obtain ⟨m, rfl⟩ : ∃ m, n = j + (m + 1) := ⟨n - j - 1, by omega⟩
  rw [List.range_add, List.range_succ_eq_map, List.map_append, List.map_cons, List.map_cons]
  exact ⟨_, rfl⟩

/-- Settles O24: the walk is cut at byte `j`, before which every byte is mapped. -/
theorem unalignedAccessFaults : Obligations.UnalignedAccessFaults := by
  intro rs rt imm s j ea k down up
  have hmapped (addr : Nat → Word) (laneOf : Nat → Nat) (h : ∀ i < j, route s.bus (addr i) ≠ none) :
      ∀ d ∈ (List.range j).map (fun i => (addr i, laneOf i)), route s.bus d.1 ≠ none := by
    rw [List.forall_mem_map]
    exact fun i hi => h i (List.mem_range.1 hi)
  refine ⟨fun hj hb hn => ?down, fun hj hb hn => ?up⟩
  case down =>
    obtain ⟨after, hsplit⟩ := map_range_split (fun i => (down i, 3 - i)) (Nat.lt_succ_of_le hj)
    have hwalk : walkDown (s.effAddr rs imm) =
        (List.range j).map (fun i => (down i, 3 - i)) ++ (down j, 3 - j) :: after := by
      rw [walkDown, byteInWord_eq]
      exact hsplit
    rw [exec, exec, execLwl, execSwl, hwalk]
    exact ⟨loadWalk_unmapped rt (hmapped _ _ hb) hn, storeWalk_unmapped rt (hmapped _ _ hb) hn⟩
  case up =>
    have hk : k < 4 := Nat.mod_lt _ (by decide)
    obtain ⟨after, hsplit⟩ := map_range_split (fun i => (up i, i)) (show j < 4 - k by omega)
    have hwalk : walkUp (s.effAddr rs imm) = (List.range j).map (fun i => (up i, i)) ++ (up j, j) :: after := by
      rw [walkUp, byteInWord_eq]
      exact hsplit
    rw [exec, exec, execLwr, execSwr, hwalk]
    exact ⟨loadWalk_unmapped rt (hmapped _ _ hb) hn, storeWalk_unmapped rt (hmapped _ _ hb) hn⟩

end Sys2Proof.Proofs
end

section
/-! PROOFS. The two pairs of unaligned accesses that make one word access (spec 43_loadstore, R212 and R215). -/

namespace Sys2Proof.Proofs

open Sys2Proof.Machine

theorem effAddr_zero (s : State) (b : Reg) : s.effAddr b 0#16 = s.x b := BitVec.add_zero _

/-- The address of the second instruction of a pair is 3 above the first. -/
theorem effAddr_three (s : State) (b : Reg) : s.effAddr b 3#16 = s.x b + 3#32 := rfl

/-- Going down from the last byte of a word is going up from its first. -/
theorem down_from_last (a : Word) {j : Nat} (hj : j ≤ 3) : a + 3#32 - BitVec.ofNat 32 j = a + BitVec.ofNat 32 (3 - j) := by
  apply BitVec.eq_of_toNat_eq
  simp only [BitVec.toNat_add, BitVec.toNat_sub, BitVec.toNat_ofNat]
  omega

/-- An instruction that ends running keeps the invariant. -/
theorem exec_inv {i : Instr} {s t : State} (h : exec i s = .next t) (ht : t.Running) (hs : s.Inv) : t.Inv := by
  obtain ⟨u, next, he, _, rfl, _⟩ := exec_running h ht
  obtain ⟨w, hw, hslot, hbus, hmem, _⟩ := effect_writes he
  exact inv_congr hslot hbus hmem (writes_inv hw hs)

section WordInMemory

variable {s : State} {a : Word} (hinv : s.Inv) (h : s.inMemory a 4)
include hinv h

/-- On an accepted bus each byte of a word in a memory device is there too. -/
theorem byte_inMemory {j : Nat} (hj : j ≤ 3) : s.inMemory (a + BitVec.ofNat 32 j) 1 :=
  (State.inMemory_later hinv.2.1 h (show j + 1 ≤ 4 by omega) Nat.one_pos).1

/-- The last byte of the word does not wrap. -/
theorem toNat_last : (a + 3#32).toNat = a.toNat + 3 :=
  (State.inMemory_later (k := 3) hinv.2.1 h le_rfl Nat.one_pos).2

/-- What the bus reads of each byte of the word. -/
theorem busRead_byte_of_word {j : Nat} (hj : j ≤ 3) :
    busRead .read (a + BitVec.ofNat 32 j) .byte s = .ok ((s.mem.read (a.toNat + j)).setWidth 32) := by
  obtain ⟨hbyte, haddr⟩ := State.inMemory_later hinv.2.1 h (show j + 1 ≤ 4 by omega) Nat.one_pos
  rw [busRead_byte_inMemory (n := .byte) hbyte, Memory.load, haddr]

end WordInMemory

/-- Settles O25: with `k` the low bits of `x[b]`, SWR stores lanes 0 to `3-k` and SWL the lanes above them, so every byte reads
as after the word store, and canonical memories with equal reads are equal. -/
theorem unalignedStorePairIsWordStore : Obligations.UnalignedStorePairIsWordStore := by
  intro b rt s t u hinv hmem _ h ht h' hu
  have hlast := toNat_last hinv hmem
  have hwf := (exec_inv h' hu (exec_inv h ht hinv)).1
  obtain ⟨_, _, _, hadv, _⟩ := exec_running h ht
  obtain ⟨_, _, _, hadv', _⟩ := exec_running h' hu
  obtain ⟨m, hm, hread⟩ := execSwr_inMemory (rs := b) (rt := rt) (imm := 0#16) hadv hinv.1 fun j hj => by
    rw [effAddr_zero]; exact byte_inMemory hinv hmem (by omega)
  obtain rfl : t = _ := Host.Outcome.next.inj (h.symm.trans hm)
  obtain ⟨m', hm', hread'⟩ := execSwl_inMemory (rs := b) (rt := rt) (imm := 3#16) hadv' (exec_inv h ht hinv).1
    fun j hj => by
      rw [effAddr_three, down_from_last _ (by omega)]
      exact byte_inMemory hinv hmem (by omega)
  obtain rfl : u = _ := Host.Outcome.next.inj (h'.symm.trans hm')
  have hstore (q : Nat) : m'.read q = (s.mem.store (s.x b).toNat .word (s.x rt)).read q := by
    have hlow := hread q
    have hhigh := hread' q
    rw [effAddr_zero] at hlow
    simp only [effAddr_three, State.setFlow_x, State.setMem_x, hlast, State.setFlow_mem, State.setMem_mem, hlow] at hhigh
    rw [hhigh, Memory.read_store _ _ _ _ hinv.1, Width.bytes]
    by_cases hin : (s.x b).toNat ≤ q ∧ q < (s.x b).toNat + 4
    · have hlane : 3 - ((s.x b).toNat + 3 - q) = q - (s.x b).toNat := by omega
      rw [if_pos hin, hlane]
      split
      · rfl
      · rw [if_pos (by omega)]
    · rw [if_neg hin, if_neg (by omega), if_neg (by omega)]
  have heq := canonicalMemoryIsExtensional _ _ hwf (Memory.store_wf _ .word (s.x rt) hinv.1) hstore
  refine ⟨heq, fun q hq => ?_⟩
  rw [heq]
  exact Memory.read_store_outside _ _ _ (by rw [Width.bytes]; omega)

/-- Settles O26: with `k` the low bits of `x[b]`, LWR fills lanes 0 to `3-k` and LWL the lanes above them, so each lane is the
byte of the word at its place. -/
theorem unalignedLoadPairIsWordLoad : Obligations.UnalignedLoadPairIsWordLoad := by
  intro b rt s t u hinv hmem hne hrt _ h ht h' hu byte
  have hlast := toNat_last hinv hmem
  have hinv' := exec_inv h ht hinv
  obtain ⟨_, _, _, hadv, _⟩ := exec_running h ht
  obtain ⟨_, _, _, hadv', _⟩ := exec_running h' hu
  obtain ⟨v, hv, hlow⟩ := execLwr_ok (rs := b) (rt := rt) (imm := 0#16) (byte := fun j => (byte j).setWidth 32) hadv
    fun j hj => by rw [effAddr_zero]; exact busRead_byte_of_word hinv hmem (by omega)
  obtain rfl : t = _ := Host.Outcome.next.inj (h.symm.trans hv)
  have hb : ((s.setX rt v).setFlow s.nextPc none).x b = s.x b := State.setX_x_ne s v hne.symm
  have hx : ((s.setX rt v).setFlow s.nextPc none).x rt = v := State.setX_x_self s v hrt
  have hmem' : ((s.setX rt v).setFlow s.nextPc none).inMemory (s.x b) 4 := by simpa [State.inMemory] using hmem
  obtain ⟨w, hw, hhigh⟩ := execLwl_ok (rs := b) (rt := rt) (imm := 3#16) (byte := fun j => (byte (3 - j)).setWidth 32)
    hadv' fun j hj => by
      rw [effAddr_three, hb, down_from_last _ (by omega), busRead_byte_of_word hinv' hmem' (by omega)]
      simp [byte]
  obtain rfl : u = _ := Host.Outcome.next.inj (h'.symm.trans hw)
  rw [effAddr_zero] at hlow
  rw [effAddr_three, hb, hx, hlast] at hhigh
  have hlane (i : Nat) (hi : i < 4) : lane w i = byte i := by
    rw [hhigh i hi, hlow i hi, lane_setWidth, lane_setWidth, Nat.sub_sub_self (by omega)]
    split
    · rfl
    · rw [if_pos (by omega)]
  calc State.x _ rt = w := State.setX_x_self _ w hrt
    _ = wordOfBytes (lane w 0) (lane w 1) (lane w 2) (lane w 3) := (wordOfBytes_lane w).symm
    _ = byte 3 ++ byte 2 ++ byte 1 ++ byte 0 := by
      rw [hlane 0 (by decide), hlane 1 (by decide), hlane 2 (by decide), hlane 3 (by decide), wordOfBytes]

end Sys2Proof.Proofs
end

section
/-! PROOFS. The statements about construction (spec 20_memory section 3, 70_reset section 1). -/

namespace Sys2Proof.Proofs

open Sys2Proof.Machine

/-! The sorted bus. -/

/-- The sort is the library's insertion sort by base. -/
theorem sortPorts_eq_insertionSort (bus : List Port) :
    sortPorts bus = bus.insertionSort fun p q => p.base.toNat ≤ q.base.toNat := by
  have hinsert (p : Port) (bus : List Port) :
      insertPort p bus = bus.orderedInsert (fun p q => p.base.toNat ≤ q.base.toNat) p := by
    induction bus with
    | nil => rfl
    | cons q qs ih => rw [insertPort, List.orderedInsert_cons, ih]
  induction bus with
  | nil => rfl
  | cons p ps ih => rw [sortPorts, List.insertionSort_cons, ih, hinsert]

/-- The sort keeps the bindings (20_memory R55). -/
theorem sortPorts_perm (bus : List Port) : (sortPorts bus).Perm bus := by
  rw [sortPorts_eq_insertionSort]
  exact List.perm_insertionSort _ bus

/-- The sorted bindings ascend by base (20_memory R55). -/
theorem sortPorts_sorted (bus : List Port) : (sortPorts bus).Pairwise fun p q => p.base.toNat ≤ q.base.toNat := by
  have : Std.Total fun p q : Port => p.base.toNat ≤ q.base.toNat := ⟨fun _ _ => Nat.le_total _ _⟩
  have : IsTrans Port fun p q => p.base.toNat ≤ q.base.toNat := ⟨fun _ _ _ => Nat.le_trans⟩
  rw [sortPorts_eq_insertionSort]
  exact List.pairwise_insertionSort _ bus

/-- The bus of a launch. -/
def launchBus (l : Launch) : List Port := sortPorts (l.bindings.map freshPort)

theorem launchBus_perm (l : Launch) : (launchBus l).Perm (l.bindings.map freshPort) := sortPorts_perm _

/-- The state that construction hands to the loader's registers (70_reset R302). -/
def launchState (l : Launch) : State where
  regs := l.regInit.set 0 0#32
  pc := l.entry
  hi := l.hiInit
  lo := l.loInit
  pending := none
  status := .running
  bus := launchBus l
  mem := populate (launchBus l) l.memInit []
  params := l.params

theorem construct_eq (l : Launch) :
    construct l =
      if (launchBus l).all Port.valid then
        if overlapFree 0 (launchBus l) then .ok (applyLoader l.loaderRegs (launchState l)) else .error .configOverlap
      else .error .configInvalid := rfl

/-- What a successful construction checked and answers. -/
theorem construct_ok {l : Launch} {s : State} (h : construct l = .ok s) :
    busWf (launchBus l) ∧ s = applyLoader l.loaderRegs (launchState l) := by
  rw [construct_eq] at h
  split at h
  · next hv =>
    split at h
    · next ho => cases h; exact ⟨⟨hv, ho⟩, rfl⟩
    · cases h
  · cases h

/-! Memory and registers as the launch gives them. -/

/-- The loader writes registers alone, and never slot 0 (70_reset R301). -/
theorem applyLoader_frame (entries : List (Reg × Word)) (s : State) :
    let t := applyLoader entries s
    t.regs[0] = s.regs[0] ∧ t.pc = s.pc ∧ t.hi = s.hi ∧ t.lo = s.lo ∧ t.pending = s.pending ∧ t.status = s.status ∧
      t.bus = s.bus ∧ t.mem = s.mem ∧ t.params = s.params := by
  induction entries generalizing s with
  | nil => exact ⟨rfl, rfl, rfl, rfl, rfl, rfl, rfl, rfl, rfl⟩
  | cons e entries ih => simpa [applyLoader] using ih (s.setX e.1 e.2)

/-- Populating keeps the canonical form. -/
theorem populate_wf (bus : List Port) (cells : List Host.Cell) {m : Memory} (h : m.wf) : (populate bus cells m).wf := by
  induction cells generalizing m with
  | nil => exact h
  | cons c cells ih =>
    rw [populate]
    split
    · exact ih (Memory.write_wf _ _ h)
    · exact ih h

/-- Populating lists bytes of memory devices alone (log 15). -/
theorem populate_mapped (bus : List Port) (cells : List Host.Cell) {m : Memory}
    (h : ∀ c ∈ m, bus.any (fun p => p.holdsByte c.1) = true) :
    ∀ c ∈ populate bus cells m, bus.any (fun p => p.holdsByte c.1) = true := by
  induction cells generalizing m with
  | nil => exact h
  | cons c cells ih =>
    rw [populate]
    split
    · next hc =>
      refine ih fun d hd => ?_
      rcases Memory.mem_write hd with e | hd
      · rwa [e]
      · exact h d hd
    · exact ih h

/-- Settles O57: construction checked the bus, populating gives the memory's two properties, and the loader leaves slot 0. -/
theorem constructionHasInvariant : Obligations.ConstructionHasInvariant := by
  intro l s h
  obtain ⟨hbus, rfl⟩ := construct_ok h
  obtain ⟨hslot, _, _, _, _, _, hb, hm, _⟩ := applyLoader_frame l.loaderRegs (launchState l)
  have hzero : (launchState l).regs[0] = 0#32 := Vector.getElem_set_self _
  simp only [State.Inv, State.memMapped, hslot, hb, hm]
  exact ⟨populate_wf _ _ ⟨.nil, by simp⟩, hbus, populate_mapped _ _ (by simp), hzero⟩

/-- Populating leaves a byte that no entry names. -/
theorem populate_read_ne (bus : List Port) {cells : List Host.Cell} (m : Memory) {a : Nat}
    (h : a ∉ cells.map Prod.fst) : (populate bus cells m).read a = m.read a := by
  induction cells generalizing m with
  | nil => rfl
  | cons c cells ih =>
    rw [List.map_cons, List.mem_cons, not_or] at h
    rw [populate, ih _ h.2]
    split
    · exact Memory.read_write_ne m _ h.1
    · rfl

/-- A byte that MEM_INIT names once, in a memory device, is in place (10_state R34). -/
theorem populate_read {bus : List Port} {cells : List Host.Cell} {m : Memory} {a : Nat} {b : Byte} (hm : m.wf)
    (hn : (cells.map Prod.fst).Nodup) (h : (a, b) ∈ cells) (hd : bus.any (fun p => p.holdsByte a) = true) :
    (populate bus cells m).read a = b := by
  induction cells generalizing m with
  | nil => cases h
  | cons c cells ih =>
    obtain ⟨hc, hn⟩ := List.nodup_cons.1 hn
    rw [populate]
    rcases List.mem_cons.1 h with rfl | h
    · rw [if_pos hd, populate_read_ne bus _ hc, Memory.read_write_self a b hm]
    · split
      · exact ih (Memory.write_wf _ _ hm) hn h
      · exact ih hm hn h

/-- The loader leaves a register that no entry names. -/
theorem applyLoader_x_ne {entries : List (Reg × Word)} (s : State) {r : Reg} (h : r ∉ entries.map Prod.fst) :
    (applyLoader entries s).x r = s.x r := by
  induction entries generalizing s with
  | nil => rfl
  | cons e entries ih =>
    rw [List.map_cons, List.mem_cons, not_or] at h
    rw [applyLoader, ih _ h.2, State.setX_x_ne s _ h.1]

/-- A register that LOADER_REGS names once holds its value (70_reset R301). -/
theorem applyLoader_x {entries : List (Reg × Word)} (s : State) {r : Reg} {v : Word} (hr : r ≠ 0#5)
    (hn : (entries.map Prod.fst).Nodup) (h : (r, v) ∈ entries) : (applyLoader entries s).x r = v := by
  induction entries generalizing s with
  | nil => cases h
  | cons e entries ih =>
    obtain ⟨he, hn⟩ := List.nodup_cons.1 hn
    rcases List.mem_cons.1 h with rfl | h
    · rw [applyLoader, applyLoader_x_ne _ he, State.setX_x_self s v hr]
    · exact ih _ hn h

/-- A register of the launch before the loader's entries (10_state R34). -/
theorem launchState_x (l : Launch) {r : Reg} (hr : r ≠ 0#5) : (launchState l).x r = l.regInit[r.toNat]'r.isLt := by
  have hne : 0 ≠ r.toNat := fun e => hr (BitVec.eq_of_toNat_eq e.symm)
  rw [State.x, if_neg hr]
  exact Vector.getElem_set_ne (by decide) r.isLt hne

/-- A fresh device has no flag set and no output (10_state R34). -/
theorem freshPort_quiet (b : Binding) (finalFlush : Bool) :
    (freshPort b).device ≠ .halt true ∧ (freshPort b).output finalFlush = [] := by
  obtain ⟨base, kind⟩ := b
  cases kind <;> cases finalFlush <;> exact ⟨nofun, rfl⟩

/-- Settles O59: the loader's registers over the launch's state, whose bus is the sorted fresh bindings. -/
theorem constructedStateIsResetState : Obligations.ConstructedStateIsResetState := by
  intro l s h hregs hmem
  obtain ⟨_, rfl⟩ := construct_ok h
  obtain ⟨_, hpc, hhi, hlo, hpending, hstatus, hbus, hm, hparams⟩ := applyLoader_frame l.loaderRegs (launchState l)
  have hfresh {p : Port} (hp : p ∈ launchBus l) : ∃ b, freshPort b = p := by
    obtain ⟨b, _, e⟩ := List.mem_map.1 ((launchBus_perm l).mem_iff.1 hp)
    exact ⟨b, e⟩
  refine ⟨hpc, hpending, hstatus, hhi, hlo, hparams, State.x_zero _, fun r v hr he => applyLoader_x _ hr hregs he,
    fun r hr hn => (applyLoader_x_ne _ hn).trans (launchState_x l hr), ?perm, ?sorted, fun a b hab hd => ?bytes, ?halt,
    ?output⟩
  case perm => rw [hbus]; exact launchBus_perm l
  case sorted => rw [hbus]; exact sortPorts_sorted _
  case bytes => rw [hm]; rw [hbus] at hd; exact populate_read ⟨.nil, by simp⟩ hmem hab hd
  case halt =>
    rw [State.haltSet, hbus, List.any_eq_false]
    intro p hp
    obtain ⟨b, rfl⟩ := hfresh hp
    have := (freshPort_quiet b true).1
    split <;> simp_all
  case output =>
    rw [State.observableOutput, hbus, List.flatMap_eq_nil_iff]
    intro p hp
    obtain ⟨b, rfl⟩ := hfresh hp
    exact (freshPort_quiet b _).2

/-! What construction accepts. -/

/-- A binding is accepted by itself when it is non-empty and ends by 2^32 (20_memory R57). -/
theorem valid_iff {p : Port} : p.valid = true ↔ p.base.toNat < p.limit ∧ p.limit ≤ 2 ^ 32 := by
  rw [Port.valid, Bool.and_eq_true, decide_eq_true_eq, decide_eq_true_eq, Port.limit]
  omega

/-- Where every binding starts at or above the mark and ends by the base of each later one, the scan accepts. -/
theorem overlapFree_of_pairwise {hw : Nat} {bus : List Port} (hm : ∀ p ∈ bus, hw ≤ p.base.toNat)
    (h : bus.Pairwise fun p q => p.limit ≤ q.base.toNat) : overlapFree hw bus = true := by
  induction bus generalizing hw with
  | nil => rfl
  | cons p ps ih =>
    obtain ⟨hp, hps⟩ := List.pairwise_cons.1 h
    rw [overlapFree, Bool.and_eq_true, decide_eq_true_eq]
    exact ⟨hm p (by simp), ih (fun q hq => max_le (hm q (by simp [hq])) (hp q hq)) hps⟩

/-- Two bindings share no address. -/
def Apart (p q : Port) : Prop := p.limit ≤ q.base.toNat ∨ q.limit ≤ p.base.toNat

theorem Apart.symm {p q : Port} (h : Apart p q) : Apart q p := Or.symm h

/-- On valid bindings sorted by base the scan accepts exactly when they are pairwise apart: two that are apart, the first not
based above the second, end and begin in that order (20_memory R56). -/
theorem overlapFree_iff {bus : List Port} (hv : bus.all Port.valid = true)
    (hs : bus.Pairwise fun p q => p.base.toNat ≤ q.base.toNat) : overlapFree 0 bus = true ↔ bus.Pairwise Apart := by
  constructor
  · exact fun h => (overlapFree_spec h).2.imp .inl
  · intro h
    refine overlapFree_of_pairwise (fun _ _ => Nat.zero_le _) ?_
    refine (hs.and h).imp_of_mem fun {p q} hp hq hpq => ?_
    have hq := (valid_iff.1 (List.all_eq_true.1 hv q hq)).1
    rcases hpq with ⟨hle, hapart | hapart⟩
    · exact hapart
    · omega

/-- Settles O58: both checks of construction are about the bindings in any order. -/
theorem constructionAcceptsExactlyDisjoint : Obligations.ConstructionAcceptsExactlyDisjoint := by
  intro l first last valid disjoint
  have hvalid : (launchBus l).all Port.valid = true ↔ valid := by
    rw [(launchBus_perm l).all_eq, List.all_eq_true, List.forall_mem_map]
    exact forall₂_congr fun b _ => valid_iff
  have hapart : (launchBus l).Pairwise Apart ↔ disjoint := by
    rw [(launchBus_perm l).pairwise_iff Apart.symm, List.pairwise_map]
    exact Iff.rfl
  have hscan (hv : valid) : overlapFree 0 (launchBus l) = true ↔ disjoint :=
    (overlapFree_iff (hvalid.2 hv) (sortPorts_sorted _)).trans hapart
  rw [construct_eq]
  refine ⟨?accepts, fun hv hd => ?overlap, fun hv _ => ?invalid⟩
  case accepts =>
    constructor
    · intro ⟨s, h⟩
      obtain ⟨⟨hv, ho⟩, _⟩ := construct_ok (construct_eq l ▸ h)
      exact ⟨hvalid.1 hv, (hscan (hvalid.1 hv)).1 ho⟩
    · intro ⟨hv, hd⟩
      exact ⟨_, by rw [if_pos (hvalid.2 hv), if_pos ((hscan hv).2 hd)]⟩
  case overlap => rw [if_pos (hvalid.2 hv), if_neg ((hscan hv).not.2 hd)]
  case invalid => rw [if_neg (hvalid.not.2 hv)]

end Sys2Proof.Proofs
end

section
/-! PROOFS. The statement about the run loop (spec 70_reset section 2). -/

namespace Sys2Proof.Proofs

open Sys2Proof.Machine

/-- A faulted state ends the run (70_reset R310). -/
theorem runLoop_faulted (n : Nat) {s : State} {f : Fault} (h : s.status = .faulted f) : runLoop n s = .faulted f s := by
  unfold runLoop
  simp only [h]

/-- A set halt flag ends the run of a running state. -/
theorem runLoop_halted (n : Nat) {s : State} (h : s.Running) (hh : s.haltSet = true) : runLoop n s = .halted s := by
  unfold runLoop
  simp [h, hh]

/-- Without steps left the run is unfinished. -/
theorem runLoop_zero {s : State} (h : s.Running) (hh : s.haltSet = false) : runLoop 0 s = .unfinished s := by
  unfold runLoop
  simp [h, hh]

/-- Else the machine steps. -/
theorem runLoop_step (n : Nat) {s t : State} (h : s.Running) (hh : s.haltSet = false) (ht : step s = .next t) :
    runLoop (n + 1) s = runLoop n t := by
  rw [runLoop]
  simp [h, hh, ht]

/-- What an end of the run says of its state (70_reset R311). -/
def EndsWell : RunEnd → Prop
  | .halted t => t.Running ∧ t.haltSet = true
  | .faulted f t => t.status = .faulted f
  | .unfinished _ => True

/-- Every end of a run is one of R311, by induction on the step budget. -/
theorem runLoop_endsWell (n : Nat) (s : State) : EndsWell (runLoop n s) := by
  induction n generalizing s with
  | zero =>
    cases hs : s.status with
    | faulted f => rw [runLoop_faulted 0 hs]; exact hs
    | running =>
      cases hh : s.haltSet with
      | true => rw [runLoop_halted 0 hs hh]; exact ⟨hs, hh⟩
      | false => rw [runLoop_zero hs hh]; trivial
  | succ n ih =>
    cases hs : s.status with
    | faulted f => rw [runLoop_faulted _ hs]; exact hs
    | running =>
      cases hh : s.haltSet with
      | true => rw [runLoop_halted _ hs hh]; exact ⟨hs, hh⟩
      | false =>
        obtain ⟨t, ht⟩ := (stepAnswersByStatus s).1 hs
        rw [runLoop_step n hs hh ht]
        exact ih t

/-- Settles O60: the loop's order, and what each end says. -/
theorem runLoopOrderAndEnds : Obligations.RunLoopOrderAndEnds := by
  intro n s t
  have hends := runLoop_endsWell n s
  refine ⟨fun f hf => runLoop_faulted n hf, runLoop_halted n, runLoop_step n, fun h => ?halted, fun f h => ?faulted⟩
  case halted => rw [h] at hends; exact hends
  case faulted => rw [h] at hends; exact hends

end Sys2Proof.Proofs
end
